-- ==== Sys2Proof/Word.lean ====
section
/-! DEFINITION. The word types of SFTB (R9, R11): bytes, cursors, flash addresses, counters, descriptors. -/

namespace Sys2Proof

/-- `BYTE`: every buffer element and bus datum is an unsigned 8-bit value (R9, R11). -/
abbrev Byte := BitVec 8

/-- `CURSOR_W`: `WR`, `SND` and `RCV` are unsigned 16-bit registers (R9, R33 to R35); the length operand `N` has the
same width (R107). -/
abbrev Cursor := BitVec 16

/-- A flash address operand is a 24-bit unsigned value (R103, R107). -/
abbrev FlashAddr := BitVec 24

/-- `STALL_CNT` is an unsigned 32-bit counter (R40). -/
abbrev Count32 := BitVec 32

/-- A poll limit `L` of `STALL_LIMIT`: 1 to 2^32 - 1 (R9; decision D14 of the spec). -/
abbrev PollLimit := { polls : Count32 // polls ≠ 0 }

/-- The host command descriptor `CMD64` (R106). -/
abbrev Descriptor := BitVec 64

end Sys2Proof
end

