-- ==== Sys2Proof/Config.lean ====
section
/-! DEFINITION. The parameters of R9: the fixed ones with their values, the OPEN ones and the values the spec calls
"any value" as constants without a body, so that nothing can be proved of what they are. -/

namespace Sys2Proof

/-! ### Fixed parameters (R9) -/

/-- `CAPACITY`: number of bytes in the Transfer Buffer (R9, R32). -/
def Config.capacity : Nat := 524

/-- `MAX_PAYLOAD`: largest read length or write payload (R9; decision D10 of the spec). -/
def Config.maxPayload : Nat := 512

/-- `READ_DUMMY`: dummy bytes after the address of a read frame (R9). -/
def Config.readDummy : Nat := 8

/-- `READ_HDR` = opcode byte + address bytes + dummy bytes (R9). -/
def Config.readHdr : Nat := 12

/-- `WRITE_HDR` = opcode byte + address bytes (R9). -/
def Config.writeHdr : Nat := 4

/-- `BURST`: most bytes transmitted, and most received, per PUMP invocation (R9, R148). -/
def Config.burst : Nat := 8

/-- `READ_ADDR_MASK` (R9, R76; decision D7 of the spec). -/
def Config.readAddrMask : FlashAddr := 0x3FF#24

/-- `WRITE_ADDR_MASK` (R9, R76). -/
def Config.writeAddrMask : FlashAddr := 0x3FF#24

/-- `DUMMY_BYTE` (R9; decision D8 of the spec). -/
def Config.dummyByte : Byte := 0x00#8

/-- The only fixed contents of the bus configuration (R79, R210): the frame format. -/
structure BusFormat where
  /-- bits per frame datum -/
  bits : Nat
  /-- `BIT_ORDER`: most significant bit first -/
  msbFirst : Bool
  /-- clock polarity of `SPI_MODE` -/
  cpol : Bool
  /-- clock phase of `SPI_MODE` -/
  cpha : Bool
  deriving DecidableEq, Repr

/-- `SPI_MODE` and `BIT_ORDER` (R9, R79, R210): 8-bit, MSB-first, CPOL = 1, CPHA = 1.  No SFTB rule depends on it. -/
def Config.busFormat : BusFormat := { bits := 8, msbFirst := true, cpol := true, cpha := true }

/-! ### OPEN parameters (R9): what `State.reset` starts with -/

/-- `IRQ_PRIORITY`, OPEN (R9, R276): the level passed to `set_priority` on read arm.  Free: log entry 3. -/
opaque Config.irqPriority : Nat

/-- `STALL_LIMIT`, OPEN (R9, R183): `none`, or 1 to 2^32 - 1 incomplete polls before `Stalled`.  Free: log entry 3. -/
opaque Config.stallLimit : Option PollLimit

/-- `STORE_CAPACITY`, OPEN (R9, R283): the bytes the ExternalStore accepts.  Free: log entry 3. -/
opaque Config.storeCapacity : Nat

/-! ### Values the spec leaves unspecified at reset -/

/-- The priority level the interrupt primitive holds before the first read-arm STEP: unspecified (R46, R311).
Free: log entry 4. -/
opaque Config.resetPriority : Nat

/-- The ExternalStore's cursor at reset: unspecified (R45, R311).  Free: log entry 4. -/
opaque Config.resetStoreCur : Nat

end Sys2Proof
end

