-- ==== Sys2Proof/Machine/Memory.lean ====
section
/-! DEFINITION. Byte memories (the Transfer Buffer and the ExternalStore) as sorted lists of cells in one canonical
form. -/

namespace Sys2Proof.Machine

/-- A byte-indexed memory: the cells that differ from what an unlisted address reads as, addresses strictly rising. -/
abbrev Memory := List Host.Cell

/-- What an address that is not listed reads as.  DESIGN CHOICE (log entry 5): the spec leaves the buffer's bytes after
reset unspecified, each any value (R32, R311); the model's reset contents are 0x00. -/
def Memory.unlisted (_a : Nat) : Byte := 0x00#8

/-- The byte at an address. -/
def Memory.read : Memory → Nat → Byte
  | [], a => Memory.unlisted a
  | (a', b') :: m, a => if a = a' then b' else Memory.read m a

/-- Put one cell into the list in front of `m`, unless it says what an unlisted address reads as. -/
def Memory.place (a : Nat) (b : Byte) (m : Memory) : Memory :=
  if b = Memory.unlisted a then m else (a, b) :: m

/-- The memory after one byte is written, in canonical form again. -/
def Memory.write : Memory → Nat → Byte → Memory
  | [], a, b => Memory.place a b []
  | (a', b') :: m, a, b =>
    if a < a' then Memory.place a b ((a', b') :: m)
    else if a = a' then Memory.place a b m
    else (a', b') :: Memory.write m a b

/-- The canonical form: addresses strictly rising, and no cell that repeats an unlisted address's value. -/
abbrev Memory.wf (m : Memory) : Prop :=
  m.Pairwise (fun c c' => c.1 < c'.1) ∧ ∀ c ∈ m, c.2 ≠ Memory.unlisted c.1

/-- Every listed address is below `n`. -/
abbrev Memory.within (m : Memory) (n : Nat) : Prop := ∀ c ∈ m, c.1 < n

/-- `n` bytes from address `a` upwards. -/
def Memory.readRange (m : Memory) : Nat → Nat → List Byte
  | _, 0 => []
  | a, n + 1 => Memory.read m a :: Memory.readRange m (a + 1) n

/-- The memory after the bytes of a list are written from address `a` upwards. -/
def Memory.writeRange (m : Memory) : Nat → List Byte → Memory
  | _, [] => m
  | a, b :: bs => Memory.writeRange (Memory.write m a b) (a + 1) bs

/-- The memory that holds the given bytes from address `a` upwards and nothing else: the form in which an initial
buffer is given as a launch input (R311). -/
def Memory.ofBytes : Nat → List Byte → Memory
  | _, [] => []
  | a, b :: bs => Memory.place a b (Memory.ofBytes (a + 1) bs)

end Sys2Proof.Machine
end

