-- ==== Sys2Proof/Machine/State.lean ====
section
/-! DEFINITION. The state of SFTB and of the environment a model must carry, as plain data, and the state after
reset. -/

namespace Sys2Proof.Machine

/-- `STATE`, the Operation Sequencer's state: six values (R36, R188). -/
inductive SeqState where
  | idle
  | readArmed
  | readWaiting
  | writeArmed
  | writeWaiting
  | stalled
  deriving DecidableEq, Repr

/-- `RESULT` codes of a host command (R112, R270). -/
inductive ResultCode where
  | ok
  | operationInProgress
  | bufferOverrun
  | stalled
  deriving DecidableEq, Repr

/-- The two agents of the block (R4). -/
inductive Agent where
  | sequencer
  | pump
  deriving DecidableEq, Repr

/-- The interrupt sources of the block: the one source `HR` (R15, R273). -/
inductive IrqSource where
  | hr
  deriving DecidableEq, Repr

/-- The primitives of R14 that are recorded in the history, with their arguments (R17). -/
inductive Prim where
  | busConfigure
  | irqEnable (source : IrqSource)
  | irqDisable (source : IrqSource)
  | irqSetPriority (source : IrqSource) (level : Nat)
  | busTx (b : Byte)
  | busRx
  | storeReset
  | storeAppend (b : Byte)
  deriving DecidableEq, Repr

/-- One event of the history: the primitive, its argument and the agent (R17). -/
structure Event where
  agent : Agent
  prim : Prim
  deriving DecidableEq, Repr

/-- A move of the outside world: what happens next (R4, R140; log entry 6). -/
inductive Move where
  /-- the host issues the next command of its stream -/
  | host
  /-- the hardware-ready event: `BusTxFree()` answers true `txFree` times and then false, and the bus offers the bytes
  `rx`, in order (R18, R119) -/
  | ready (txFree : Nat) (rx : List Byte)
  /-- the far end of the wire recognises frame byte 0 `b` (R250; log entry 9) -/
  | frameByte (b : Byte)
  /-- power-on or hardware reset; `buf` is what the buffer holds afterwards, any bytes (R310, R313; log entry 10) -/
  | reset (buf : List Byte)
  deriving DecidableEq, Repr

/-- The OPEN parameters, arguments of the model (R3, R9; log entry 3).  No step writes them. -/
structure Params where
  /-- `IRQ_PRIORITY` -/
  irqPriority : Nat
  /-- `STALL_LIMIT`: `none`, or 1 to 2^32 - 1 polls -/
  stallLimit : Option PollLimit
  /-- `STORE_CAPACITY` -/
  storeCapacity : Nat
  deriving DecidableEq, Repr

/-- The machine: the block's fields (R41), the environment state of R44 to R46, the history (R17), the results returned
(R112), the parameters (R9) and the inputs still to come. -/
structure State where
  /-- `STATE` (R36) -/
  seq : SeqState
  /-- `IE` (R37) -/
  ie : Bool
  /-- `OVR` (R38) -/
  ovr : Bool
  /-- `BUSCFG` (R39) -/
  busCfg : Bool
  /-- `STALL_CNT` (R40) -/
  stallCnt : Count32
  /-- `WR` (R33) -/
  wr : Cursor
  /-- `SND` (R34) -/
  snd : Cursor
  /-- `RCV` (R35) -/
  rcv : Cursor
  /-- `BUF` (R32) -/
  buf : Memory
  /-- `INFLIGHT`, kept by the bus (R44) -/
  inflight : Nat
  /-- `STORE`, the ExternalStore's bytes (R45) -/
  store : Memory
  /-- `STORE_CUR`, the ExternalStore's cursor (R45) -/
  storeCur : Nat
  /-- the level the interrupt primitive holds for `HR` (R46) -/
  hrPriority : Nat
  /-- the history, oldest event first (R17) -/
  history : List Event
  /-- the result words returned so far, oldest first (R112; log entry 12) -/
  results : List Byte
  /-- the OPEN parameters (R9) -/
  params : Params
  /-- input: the host stream still to come (R109; log entry 6) -/
  host : List Byte
  /-- input: who moves next (log entry 6) -/
  moves : List Move
  /-- draw: how many more times `BusTxFree()` answers true (R18; log entry 7) -/
  txFree : Nat
  /-- draw: the received bytes the bus offers (R18; log entry 7) -/
  rxOffer : List Byte
  deriving DecidableEq, Repr

/-- Which boot duty was broken (R281). -/
inductive BootError where
  /-- INIT_BUS while `BUSCFG = 1` (R211) -/
  | secondInitBus
  /-- a begin command while `BUSCFG = 0` (R212) -/
  | beginBeforeInitBus
  deriving DecidableEq, Repr

/-- Why the machine stops with a fault: the three model-level faults of the spec. -/
inductive Fault where
  /-- R281, raised by INIT_BUS, BEGIN_READ and BEGIN_WRITE when the host breaks the boot order.  Safe: nothing can be
  proved of what follows. -/
  | protocolViolation (why : BootError)
  /-- R282, raised by a buffer access at index 524 or above.  Safe: no state that meets the cursor rule R48 raises it. -/
  | indexOutOfRange (index : Nat)
  /-- R283, raised by STEP when the completion copy appends to a full ExternalStore; the argument is the cursor.  Safe:
  nothing can be proved of what follows. -/
  | storeOverflow (cursor : Nat)
  deriving DecidableEq, Repr

/-- Why a step has no meaning. -/
inductive Refusal where
  /-- an instruction without a meaning yet, by its name in the opcode table; raised by `exec` alone.  Safe. -/
  | notModelled (mnemonic : String)
  /-- R284, raised by the fetch of a host command with a reserved encoding.  Safe: no state changes. -/
  | reservedCommand
  /-- R285, raised by the fetch of a BEGIN_WRITE whose stream is short.  Safe: no state changes. -/
  | malformedCommand
  /-- raised by the fetch when the host stream ends inside a descriptor (log entry 2).  Safe. -/
  | truncatedDescriptor
  /-- R260, raised by the fetch of a frame byte 0 that names no opcode.  Safe. -/
  | unknownFrameOpcode
  deriving DecidableEq, Repr

/-- A start state: reset (R311) with every value the spec leaves to the launch given as an argument: the OPEN
parameters, the buffer's bytes, the ExternalStore's bytes and cursor, and the priority level of `HR`. -/
def State.launch (params : Params) (buf store : Memory) (storeCur hrPriority : Nat) : State where
  seq := .idle
  ie := false
  ovr := false
  busCfg := false
  stallCnt := 0
  wr := 0
  snd := 0
  rcv := 0
  buf := buf
  inflight := 0
  store := store
  storeCur := storeCur
  hrPriority := hrPriority
  history := []
  results := []
  params := params
  host := []
  moves := []
  txFree := 0
  rxOffer := []

/-- The machine right after reset (R311): memories with nothing listed (log entry 5), the OPEN parameters and the
unspecified registers of the environment at free values (log entries 3 and 4), no input yet (log entry 6). -/
def State.reset : State :=
  State.launch
    { irqPriority := Config.irqPriority, stallLimit := Config.stallLimit, storeCapacity := Config.storeCapacity }
    [] [] Config.resetStoreCur Config.resetPriority

end Sys2Proof.Machine
end

