-- ==== Sys2Proof/Machine/Ops.lean ====
section
/-! DEFINITION. The named operations: the primitives of R14, each with its event (R17), the buffer accesses, the taking
of the hardware-ready interrupt, and reset. -/

namespace Sys2Proof.Machine

/-! ### Outcomes -/

/-- An operation that either faults or gives a state, as an outcome of a step. -/
def outcomeOf : Except Fault State → Host.Outcome State Fault Refusal
  | .ok s => .next s
  | .error f => .fault f

/-! ### The history (R17) -/

/-- Append one event. -/
def emit (agent : Agent) (prim : Prim) (s : State) : State :=
  { s with history := s.history ++ [{ agent := agent, prim := prim }] }

/-! ### Buffer accesses (R14, R71, R282) -/

/-- `MemRead(i, 1)`. -/
def memRead (i : Nat) (s : State) : Except Fault Byte :=
  if i < Config.capacity then .ok (Memory.read s.buf i) else .error (.indexOutOfRange i)

/-- `MemWrite(i, 1, b)`. -/
def memWrite (i : Nat) (b : Byte) (s : State) : Except Fault State :=
  if i < Config.capacity then .ok { s with buf := Memory.write s.buf i b } else .error (.indexOutOfRange i)

/-- `MemWrite` of each byte of a list at rising indices. -/
def memWriteAll : Nat → List Byte → State → Except Fault State
  | _, [], s => .ok s
  | i, b :: bs, s =>
    match memWrite i b s with
    | .ok t => memWriteAll (i + 1) bs t
    | .error f => .error f

/-! ### Bus primitives (R14, R44) -/

/-- `BusConfigure()`, recorded; its contents are `Config.busFormat` and otherwise opaque (R210). -/
def busConfigure (s : State) : State := emit .sequencer .busConfigure s

/-- `BusTx(b)`: one byte leaves, `INFLIGHT + 1`, and one true answer of `BusTxFree()` is used up. -/
def busTx (b : Byte) (s : State) : State :=
  emit .pump (.busTx b) { s with inflight := s.inflight + 1, txFree := s.txFree - 1 }

/-- `BusRx()`: the byte in front of the bus's offer is taken, `INFLIGHT - 1` (0 stays 0: log entry 13); the event has
no argument (log entry 11). -/
def busRx (rest : List Byte) (s : State) : State :=
  emit .pump .busRx { s with inflight := s.inflight - 1, rxOffer := rest }

/-! ### The interrupt primitive (R14, R37, R273) -/

/-- `IrqEnable(HR)` and `IE <- 1`. -/
def irqEnable (agent : Agent) (s : State) : State := emit agent (.irqEnable .hr) { s with ie := true }

/-- `IrqDisable(HR)` and `IE <- 0`. -/
def irqDisable (agent : Agent) (s : State) : State := emit agent (.irqDisable .hr) { s with ie := false }

/-- `IrqSetPriority(HR, IRQ_PRIORITY)`: the interrupt primitive holds the level from now on (R46). -/
def irqSetPriority (agent : Agent) (s : State) : State :=
  emit agent (.irqSetPriority .hr s.params.irqPriority) { s with hrPriority := s.params.irqPriority }

/-- Taking the hardware-ready interrupt with the draws of this invocation (R18, R286): no field of the block is
saved or written. -/
def takeReady (txFree : Nat) (rx : List Byte) (s : State) : State := { s with txFree := txFree, rxOffer := rx }

/-! ### The ExternalStore (R14, R45, R283) -/

/-- `StoreReset()`. -/
def storeReset (s : State) : State := emit .sequencer .storeReset { s with storeCur := 0 }

/-- `StoreAppend(b)`: the fault `StoreOverflow` when the store is full (log entry 14). -/
def storeAppend (b : Byte) (s : State) : Except Fault State :=
  if s.storeCur < s.params.storeCapacity then
    .ok (emit .sequencer (.storeAppend b)
      { s with store := Memory.write s.store s.storeCur b, storeCur := s.storeCur + 1 })
  else .error (.storeOverflow s.storeCur)

/-- `for i: StoreAppend(MemRead(i, 1))`, `n` bytes from buffer index `i` (R180). -/
def storeCopy : Nat → Nat → State → Except Fault State
  | 0, _, s => .ok s
  | n + 1, i, s =>
    match memRead i s with
    | .error f => .error f
    | .ok b =>
      match storeAppend b s with
      | .error f => .error f
      | .ok t => storeCopy n (i + 1) t

/-! ### Reset (R310 to R313) -/

/-- A reset of the block during a run: every field of the block as R311 says, the buffer as the environment gives it,
the history empty.  The bus, the interrupt primitive, the ExternalStore and the inputs are outside the block and stay
(R312, R313; log entry 10). -/
def hardReset (buf : List Byte) (s : State) : State :=
  { s with
    seq := .idle
    ie := false
    ovr := false
    busCfg := false
    stallCnt := 0
    wr := 0
    snd := 0
    rcv := 0
    buf := Memory.ofBytes 0 (buf.take Config.capacity)
    history := []
    results := [] }

end Sys2Proof.Machine
end

