-- ==== Sys2Proof/Machine/Flags.lean ====
section
/-! DEFINITION. Flag computations: the predicates `complete` and `idle`, the codes of `STATE` and of the results, the
stall counter, and the checks of a begin command. -/

namespace Sys2Proof.Machine

/-- The codes of `STATE` (R114). -/
def stateCode : SeqState → BitVec 3
  | .idle => 0
  | .readArmed => 1
  | .readWaiting => 2
  | .writeArmed => 3
  | .writeWaiting => 4
  | .stalled => 5

/-- The number of a `RESULT` (R112). -/
def resultCode : ResultCode → BitVec 4
  | .ok => 0
  | .operationInProgress => 1
  | .bufferOverrun => 2
  | .stalled => 3

/-- The result word `RES8`: bits 7:5 are 0, bit 4 is `IDLE`, bits 3:0 are `RESULT` (R112). -/
def res8 (r : ResultCode) (idle : Bool) : Byte := 0#3 ++ (BitVec.ofBool idle ++ resultCode r)

/-- End a host command other than IS_IDLE with a result (R14, R112). -/
def returnResult (r : ResultCode) (s : State) : State := { s with results := s.results ++ [res8 r false] }

/-- End IS_IDLE with `Ok` and its bit (R112, R225). -/
def returnIdle (idle : Bool) (s : State) : State := { s with results := s.results ++ [res8 .ok idle] }

/-- `complete`: `RCV == WR` (R42). -/
def isComplete (s : State) : Bool := decide (s.rcv = s.wr)

/-- `idle`: `STATE == Idle` (R43). -/
def isIdleState (s : State) : Bool := decide (s.seq = .idle)

/-- `STATE ∈ {ReadWaiting, WriteWaiting}` (R20). -/
def isWaiting (s : State) : Bool := decide (s.seq = .readWaiting ∨ s.seq = .writeWaiting)

/-- `STATE ∈ {ReadArmed, WriteArmed}` (R20). -/
def isArmed (s : State) : Bool := decide (s.seq = .readArmed ∨ s.seq = .writeArmed)

/-- `sat32(x + 1)` (R171). -/
def satSucc (c : Count32) : Count32 := BitVec.ofNat 32 (min (c.toNat + 1) (2 ^ 32 - 1))

/-- `STALL_LIMIT = L` and the counter has reached `L` (R183). -/
def stallReached (limit : Option PollLimit) (c : Count32) : Bool :=
  match limit with
  | none => false
  | some l => decide (l.val.toNat ≤ c.toNat)

/-- What a begin command with `n` payload or data bytes meets, in the order of R278 after the stream check: the fault,
a result that refuses it, or nothing. -/
inductive BeginCheck where
  | violation
  | refused (r : ResultCode)
  | accepted
  deriving DecidableEq, Repr

/-- The checks of R278, items 2 to 5. -/
def beginCheck (n : Nat) (s : State) : BeginCheck :=
  if s.busCfg = false then .violation
  else if s.seq ≠ .idle then .refused .operationInProgress
  else if s.ovr = true then .refused .bufferOverrun
  else if n > Config.maxPayload then .refused .bufferOverrun
  else .accepted

end Sys2Proof.Machine
end

