-- ==== Sys2Proof/Machine/BytePump.lean ====
section
/-! DEFINITION. The Byte Pump: PUMP (R140 to R154). -/

namespace Sys2Proof.Machine

/-- The transmit loop, with at most the given number of passes left (R143). -/
def txLoop : Nat → State → Except Fault State
  | 0, s => .ok s
  | n + 1, s =>
    if s.txFree = 0 ∨ s.snd = s.wr then .ok s
    else
      match memRead s.snd.toNat s with
      | .error f => .error f
      | .ok b => txLoop n { busTx b s with snd := s.snd + 1 }

/-- The receive loop, with at most the given number of passes left (R145).  The answer's second part says whether the
bounds check of R146 fired: a byte is offered while `RCV == WR`; it is not taken. -/
def rxLoop : Nat → State → Except Fault (State × Bool)
  | 0, s => .ok (s, false)
  | n + 1, s =>
    match s.rxOffer with
    | [] => .ok (s, false)
    | b :: rest =>
      if s.rcv = s.wr then .ok (s, true)
      else
        match memWrite s.rcv.toNat b (busRx rest s) with
        | .error f => .error f
        | .ok t => rxLoop n { t with rcv := s.rcv + 1 }

/-- The check after both loops (R147): overrun first, then completion; either way one `IrqDisable(HR)`. -/
def pumpFinish (overrun : Bool) (s : State) : State :=
  if overrun then irqDisable .pump { s with ovr := true }
  else if isComplete s then irqDisable .pump s
  else s

/-- One invocation, given that `HR` is enabled (R141, R142). -/
def pumpBody (s : State) : Except Fault State :=
  match txLoop Config.burst s with
  | .error f => .error f
  | .ok t =>
    match rxLoop Config.burst t with
    | .error f => .error f
    | .ok (u, overrun) => .ok (pumpFinish overrun u)

/-- PUMP (R141).  A hardware-ready event while `IE = 0` invokes nothing (R140, R275; log entry 8). -/
def execPump (s : State) : Host.Outcome State Fault Refusal :=
  if s.ie then outcomeOf (pumpBody s) else .next s

end Sys2Proof.Machine
end

