-- ==== Sys2Proof/Machine/FrameOpcodes.lean ====
section
/-! DEFINITION. The meanings of the nine frame opcodes (R250 to R260).  An opcode is the value of frame byte 0 that the
far end of the wire recognises.  What the flash device does with it is outside the block (R7), and the block does
nothing with it: SFTB only puts READ and WRITE into `BUF[0]`, in the arm procedures (R250), and only PUMP sends bytes.
So the opcode being recognised leaves every field as it is (log entry 9). -/

namespace Sys2Proof.Machine

/-- What the block itself does when the far end recognises an opcode: nothing (R7, R250). -/
def frameRecognised (s : State) : Host.Outcome State Fault Refusal := .next s

/-- FLASH_STATUS: SFTB does not emit it, and cannot poll a status with it (R251). -/
def execFlashStatus (s : State) : Host.Outcome State Fault Refusal := frameRecognised s

/-- FLASH_READ: emitted by BEGIN_READ through ARM_READ; by itself it changes nothing of the block (R252). -/
def execFlashRead (s : State) : Host.Outcome State Fault Refusal := frameRecognised s

/-- FLASH_ID: SFTB does not emit it (R253). -/
def execFlashId (s : State) : Host.Outcome State Fault Refusal := frameRecognised s

/-- FLASH_WRITE: emitted by BEGIN_WRITE through ARM_WRITE; by itself it changes nothing of the block (R254). -/
def execFlashWrite (s : State) : Host.Outcome State Fault Refusal := frameRecognised s

/-- FLASH_ERASE: SFTB does not emit it (R255). -/
def execFlashErase (s : State) : Host.Outcome State Fault Refusal := frameRecognised s

/-- FLASH_WRITE_ENABLE: SFTB does not emit it (R256). -/
def execFlashWriteEnable (s : State) : Host.Outcome State Fault Refusal := frameRecognised s

/-- FLASH_BUFFER2_WRITE_ENABLE: SFTB does not emit it (R257). -/
def execFlashBuffer2WriteEnable (s : State) : Host.Outcome State Fault Refusal := frameRecognised s

/-- FLASH_BUFFER2_WRITE: SFTB does not emit it (R258). -/
def execFlashBuffer2Write (s : State) : Host.Outcome State Fault Refusal := frameRecognised s

/-- FLASH_BUFFER2_COMMIT: SFTB does not emit it (R259). -/
def execFlashBuffer2Commit (s : State) : Host.Outcome State Fault Refusal := frameRecognised s

end Sys2Proof.Machine
end

