-- ==== Sys2Proof/Syntax.lean ====
section
/-! DEFINITION. The instructions of SFTB: the six host commands, the PUMP event and the nine frame opcodes, one
constructor per row of the opcode table (R120). -/

namespace Sys2Proof

/-- One constructor per row of `spec/opcode_table.json`. -/
inductive Instr where
  /-- `INIT_BUS` (R210) -/
  | initBus
  /-- `BEGIN_READ A, N` (R213) -/
  | beginRead (addr : FlashAddr) (len : Cursor)
  /-- `BEGIN_WRITE A, P` (R219); the operand `N` is the number of bytes of `P` (R106, R117) -/
  | beginWrite (addr : FlashAddr) (payload : List Byte)
  /-- `STEP` (R224) -/
  | step
  /-- `IS_IDLE` (R225) -/
  | isIdle
  /-- `ABORT` (R228) -/
  | abort
  /-- `PUMP`: the hardware-ready event (R141); no operands, no bit pattern (R111) -/
  | pump
  /-- `FLASH_STATUS` 0xD7 (R251) -/
  | flashStatus
  /-- `FLASH_READ` 0xE8 (R252) -/
  | flashRead
  /-- `FLASH_ID` 0x9F (R253) -/
  | flashId
  /-- `FLASH_WRITE` 0x82 (R254) -/
  | flashWrite
  /-- `FLASH_ERASE` 0x81 (R255) -/
  | flashErase
  /-- `FLASH_WRITE_ENABLE` 0x88 (R256) -/
  | flashWriteEnable
  /-- `FLASH_BUFFER2_WRITE_ENABLE` 0x89 (R257) -/
  | flashBuffer2WriteEnable
  /-- `FLASH_BUFFER2_WRITE` 0x85 (R258) -/
  | flashBuffer2Write
  /-- `FLASH_BUFFER2_COMMIT` 0x87 (R259) -/
  | flashBuffer2Commit
  deriving DecidableEq, Repr

/-- Where an instruction comes from (R120): the host's command stream, frame byte 0 on the wire, or the hardware-ready
event, which has no bits at all (R111). -/
inductive Channel where
  | host
  | wire
  | event
  deriving DecidableEq, Repr

end Sys2Proof
end

