-- ==== Sys2Proof/WellFormed.lean ====
section
/-! DEFINITION. Which terms of `Instr` stand for an instruction of the hardware. -/

namespace Sys2Proof

/-- The one check: `LEN` has 16 bits, so a payload longer than 65535 bytes has no descriptor (R107, R117). -/
def Instr.wf : Instr → Bool
  | .initBus => true
  | .beginRead _ _ => true
  | .beginWrite _ payload => decide (payload.length < 65536)
  | .step => true
  | .isIdle => true
  | .abort => true
  | .pump => true
  | .flashStatus => true
  | .flashRead => true
  | .flashId => true
  | .flashWrite => true
  | .flashErase => true
  | .flashWriteEnable => true
  | .flashBuffer2WriteEnable => true
  | .flashBuffer2Write => true
  | .flashBuffer2Commit => true

end Sys2Proof
end

