-- ==== Sys2Proof/Decode.lean ====
section
/-! DEFINITION. Decoding of the three channels (R106 to R111, R115, R120), and the encoder written from the same
tables. -/

namespace Sys2Proof

/-! ### Byte order of the host stream -/

/-- The first `n` bytes of a stream and what follows them, or `none` if the stream ends before. -/
def takeBytes : Nat → List Byte → Option (List Byte × List Byte)
  | 0, bs => some ([], bs)
  | _ + 1, [] => none
  | n + 1, b :: bs =>
    match takeBytes n bs with
    | some (taken, rest) => some (b :: taken, rest)
    | none => none

/-- The number whose bytes are listed least significant first.  DESIGN CHOICE (log entry 1): a descriptor enters the
host stream with its least significant byte first. -/
def leNat : List Byte → Nat
  | [] => 0
  | b :: bs => b.toNat + 256 * leNat bs

/-- The low `n` bytes of a number, least significant first. -/
def leBytes : Nat → Nat → List Byte
  | 0, _ => []
  | n + 1, w => BitVec.ofNat 8 w :: leBytes n (w / 256)

/-! ### The descriptor `CMD64` (R107, R108) -/

/-- `CMD` = bits 3:0. -/
def cmdField (d : Descriptor) : BitVec 4 := d.extractLsb' 0 4

/-- `RSV0` = bits 7:4. -/
def rsv0Field (d : Descriptor) : BitVec 4 := d.extractLsb' 4 4

/-- `ADDR` = bits 31:8 (R109). -/
def addrField (d : Descriptor) : FlashAddr := d.extractLsb' 8 24

/-- `LEN` = bits 47:32 (R109). -/
def lenField (d : Descriptor) : Cursor := d.extractLsb' 32 16

/-- `RSV1` = bits 63:48. -/
def rsv1Field (d : Descriptor) : BitVec 16 := d.extractLsb' 48 16

/-- `(LEN << 32) | (ADDR << 8) | CMD` with both reserved fields 0 (R107). -/
def mkDescriptor (cmd : BitVec 4) (addr : FlashAddr) (len : Cursor) : Descriptor :=
  0#16 ++ (len ++ (addr ++ (0#4 ++ cmd)))

/-- Why bytes are no instruction. -/
inductive DecodeError where
  /-- R115: a reserved `CMD`, a nonzero reserved field, or a nonzero operand field of a command without operands -/
  | reservedCommand
  /-- R115, R285: the stream ends before the `LEN` payload bytes of a BEGIN_WRITE -/
  | malformedCommand
  /-- the stream ends inside a descriptor (DESIGN CHOICE, log entry 2) -/
  | truncatedDescriptor
  /-- R260: a frame byte 0 outside the nine opcodes, or no byte at all -/
  | unknownFrameOpcode
  deriving DecidableEq, Repr

/-- The command a descriptor names, given the stream that follows it; the answer's second part is the stream after the
command (R110, R115). -/
def decodeDescriptor (d : Descriptor) (stream : List Byte) : Except DecodeError (Instr × List Byte) :=
  if rsv0Field d ≠ 0 ∨ rsv1Field d ≠ 0 then .error .reservedCommand
  else
    match (cmdField d).toNat with
    | 2 => .ok (.beginRead (addrField d) (lenField d), stream)
    | 3 =>
      match takeBytes (lenField d).toNat stream with
      | some (payload, rest) => .ok (.beginWrite (addrField d) payload, rest)
      | none => .error .malformedCommand
    | c =>
      if addrField d ≠ 0 ∨ lenField d ≠ 0 then .error .reservedCommand
      else
        match c with
        | 1 => .ok (.initBus, stream)
        | 4 => .ok (.step, stream)
        | 5 => .ok (.isIdle, stream)
        | 6 => .ok (.abort, stream)
        | _ => .error .reservedCommand

/-- One host command off the front of the host stream: 8 descriptor bytes, then the payload of a BEGIN_WRITE (R110). -/
def decodeCommand (bs : List Byte) : Except DecodeError (Instr × List Byte) :=
  match takeBytes 8 bs with
  | some (d, rest) => decodeDescriptor (BitVec.ofNat 64 (leNat d)) rest
  | none => .error .truncatedDescriptor

/-! ### Frame byte 0 (R105, R250 to R260) -/

/-- The opcode a frame byte 0 names, matched by value with mask 0xFF (R250). -/
def decodeFrameByte (b : Byte) : Option Instr :=
  match b.toNat with
  | 0xD7 => some .flashStatus
  | 0xE8 => some .flashRead
  | 0x9F => some .flashId
  | 0x82 => some .flashWrite
  | 0x81 => some .flashErase
  | 0x88 => some .flashWriteEnable
  | 0x89 => some .flashBuffer2WriteEnable
  | 0x85 => some .flashBuffer2Write
  | 0x87 => some .flashBuffer2Commit
  | _ => none

/-- The frame opcode at the front of wire bytes. -/
def decodeFrame : List Byte → Except DecodeError (Instr × List Byte)
  | [] => .error .unknownFrameOpcode
  | b :: rest =>
    match decodeFrameByte b with
    | some i => .ok (i, rest)
    | none => .error .unknownFrameOpcode

/-- Decoding on any channel and any bytes (R120): the event channel carries no bits (R111). -/
def decode : Channel → List Byte → Except DecodeError (Instr × List Byte)
  | .host, bs => decodeCommand bs
  | .wire, bs => decodeFrame bs
  | .event, bs => .ok (.pump, bs)

/-! ### The encoder -/

/-- The channel each instruction comes from (R120). -/
def Instr.channel : Instr → Channel
  | .initBus => .host
  | .beginRead _ _ => .host
  | .beginWrite _ _ => .host
  | .step => .host
  | .isIdle => .host
  | .abort => .host
  | .pump => .event
  | .flashStatus => .wire
  | .flashRead => .wire
  | .flashId => .wire
  | .flashWrite => .wire
  | .flashErase => .wire
  | .flashWriteEnable => .wire
  | .flashBuffer2WriteEnable => .wire
  | .flashBuffer2Write => .wire
  | .flashBuffer2Commit => .wire

/-- The eight stream bytes of a descriptor. -/
def descriptorBytes (d : Descriptor) : List Byte := leBytes 8 d.toNat

/-- The bytes of an instruction on its channel (R105, R107, R108, R110, R111). -/
def encode : Instr → List Byte
  | .initBus => descriptorBytes (mkDescriptor 0x1#4 0 0)
  | .beginRead addr len => descriptorBytes (mkDescriptor 0x2#4 addr len)
  | .beginWrite addr payload =>
    descriptorBytes (mkDescriptor 0x3#4 addr (BitVec.ofNat 16 payload.length)) ++ payload
  | .step => descriptorBytes (mkDescriptor 0x4#4 0 0)
  | .isIdle => descriptorBytes (mkDescriptor 0x5#4 0 0)
  | .abort => descriptorBytes (mkDescriptor 0x6#4 0 0)
  | .pump => []
  | .flashStatus => [0xD7#8]
  | .flashRead => [0xE8#8]
  | .flashId => [0x9F#8]
  | .flashWrite => [0x82#8]
  | .flashErase => [0x81#8]
  | .flashWriteEnable => [0x88#8]
  | .flashBuffer2WriteEnable => [0x89#8]
  | .flashBuffer2Write => [0x85#8]
  | .flashBuffer2Commit => [0x87#8]

/-! ### Words of the opcode table -/

/-- The channel of an opcode-table row by the bits the table gives it: none for the PUMP event (R111), 8 for a frame
opcode (R105), else a `CMD64` descriptor (R107). -/
def tableChannel (nbits : Nat) : Channel :=
  if nbits = 0 then .event else if nbits = 8 then .wire else .host

/-- The bytes of a table word as its channel carries them; every bit above `nbits` is 0, so the payload a BEGIN_WRITE
word announces is zeros. -/
def tableBytes (nbits w : Nat) : List Byte :=
  match tableChannel nbits with
  | .event => []
  | .wire => [BitVec.ofNat 8 w]
  | .host =>
    let d : Descriptor := BitVec.ofNat 64 (w % 2 ^ nbits)
    descriptorBytes d ++ (if cmdField d = 3 then List.replicate (lenField d).toNat 0 else [])

/-- What the decoder reads from a table word (bit 0 least significant). -/
def decodeTableWord (nbits w : Nat) : Option Instr :=
  match decode (tableChannel nbits) (tableBytes nbits w) with
  | .ok (i, _) => some i
  | .error _ => none

end Sys2Proof
end

