-- ==== Sys2Proof/Machine/Operands.lean ====
section
/-! DEFINITION. Operand forms: the assembly of a frame's address field, the frames of a READ and of a WRITE, and the
bits of a byte on the wire. -/

namespace Sys2Proof.Machine

/-- The 24-bit address field of a frame, most significant byte first (R78, R103). -/
def addrBytes (a : FlashAddr) : List Byte := [a.extractLsb' 16 8, a.extractLsb' 8 8, a.extractLsb' 0 8]

/-- `OP_READ`: the frame byte of FLASH_READ (R252). -/
def opRead : Byte := 0xE8#8

/-- `OP_WRITE`: the frame byte of FLASH_WRITE (R254). -/
def opWrite : Byte := 0x82#8

/-- The 12 bytes an armed READ starts with: opcode, masked address, dummy bytes (R72, R101, R172). -/
def readHeader (addr : FlashAddr) : List Byte :=
  opRead :: addrBytes (addr &&& Config.readAddrMask) ++ List.replicate Config.readDummy Config.dummyByte

/-- The frame of an armed WRITE: opcode, masked address, payload (R73, R102, R173). -/
def writeFrame (addr : FlashAddr) (payload : List Byte) : List Byte :=
  opWrite :: addrBytes (addr &&& Config.writeAddrMask) ++ payload

/-- The frame a state would transmit from its beginning: `BUF[0] .. BUF[WR-1]` (R100). -/
def frameBytes (s : State) : List Byte := Memory.readRange s.buf 0 s.wr.toNat

/-- The bits of a byte in the order they are on the wire: most significant bit first (R79, R100). -/
def wireBits (b : Byte) : List Bool :=
  [b.getLsbD 7, b.getLsbD 6, b.getLsbD 5, b.getLsbD 4, b.getLsbD 3, b.getLsbD 2, b.getLsbD 1, b.getLsbD 0]

end Sys2Proof.Machine
end

