-- ==== Sys2Proof/Machine/Sequencer.lean ====
section
/-! DEFINITION. The Operation Sequencer: the arm procedures and the action of STEP in each state (R170 to R188). -/

namespace Sys2Proof.Machine

/-! ### Arm procedures -/

/-- What both arm procedures do: cursors to 0, the given bytes into `BUF[0 ..]`, `WR` and `STATE` (R172, R173). -/
def armFrame (bytes : List Byte) (wr : Nat) (seq : SeqState) (s : State) : Except Fault State :=
  match memWriteAll 0 bytes { s with snd := 0, rcv := 0 } with
  | .error f => .error f
  | .ok t => .ok { t with wr := BitVec.ofNat 16 wr, seq := seq }

/-- `ARM_READ(A, N)` (R172): only the 12 header bytes are written. -/
def armRead (addr : FlashAddr) (n : Nat) (s : State) : Except Fault State :=
  armFrame (readHeader addr) (Config.readHdr + n) .readArmed s

/-- `ARM_WRITE(A, P)` (R173). -/
def armWrite (addr : FlashAddr) (payload : List Byte) (s : State) : Except Fault State :=
  armFrame (writeFrame addr payload) (Config.writeHdr + payload.length) .writeArmed s

/-- A begin command: the checks of R278, then the arm procedure and `Ok`. -/
def beginWith (n : Nat) (arm : State → Except Fault State) (s : State) : Host.Outcome State Fault Refusal :=
  match beginCheck n s with
  | .violation => .fault (.protocolViolation .beginBeforeInitBus)
  | .refused r => .next (returnResult r s)
  | .accepted =>
    match arm s with
    | .error f => .fault f
    | .ok t => .next (returnResult .ok t)

/-! ### STEP in each state -/

/-- Every transition to Idle also clears `STALL_CNT` (R171). -/
def toIdle (s : State) : State := { s with stallCnt := 0, seq := .idle }

/-- Entering a Waiting state: `STALL_CNT <- 0` (R176, R178). -/
def toWaiting (seq : SeqState) (s : State) : State := { s with stallCnt := 0, seq := seq }

/-- STEP in Idle (R175). -/
def stepIdle (s : State) : State := returnResult .ok s

/-- STEP in ReadArmed (R176): enable, then priority, in that order. -/
def stepReadArmed (s : State) : State :=
  returnResult .ok (toWaiting .readWaiting (irqSetPriority .sequencer (irqEnable .sequencer s)))

/-- STEP in WriteArmed (R178): no priority call. -/
def stepWriteArmed (s : State) : State :=
  returnResult .ok (toWaiting .writeWaiting (irqEnable .sequencer s))

/-- The read-completion copy (R180): the whole frame, from store index 0. -/
def readDone (s : State) : Except Fault State := storeCopy s.wr.toNat 0 (storeReset s)

/-- The stall rule (R183). -/
def stepIncomplete (s : State) : State :=
  let t := { s with stallCnt := satSucc s.stallCnt }
  if stallReached t.params.stallLimit t.stallCnt then
    returnResult .stalled { irqDisable .sequencer t with seq := .stalled }
  else returnResult .ok t

/-- STEP in a Waiting state: `OVR`, then completion, then the stall rule (R179); `done` is what completion does before
the return to Idle. -/
def stepWaiting (done : State → Except Fault State) (s : State) : Except Fault State :=
  if s.ovr then .ok (returnResult .bufferOverrun (toIdle s))
  else if isComplete s then
    match done s with
    | .error f => .error f
    | .ok t => .ok (returnResult .ok (toIdle t))
  else .ok (stepIncomplete s)

/-- STEP in Stalled (R184). -/
def stepStalled (s : State) : State := returnResult .stalled s

end Sys2Proof.Machine
end

