-- ==== Sys2Proof/Machine/HostCommands.lean ====
section
/-! DEFINITION. The meanings of the six host commands (R210 to R229). -/

namespace Sys2Proof.Machine

/-- INIT_BUS (R210, R211). -/
def execInitBus (s : State) : Host.Outcome State Fault Refusal :=
  if s.busCfg then .fault (.protocolViolation .secondInitBus)
  else .next (returnResult .ok { busConfigure s with busCfg := true })

/-- BEGIN_READ (R213 to R217). -/
def execBeginRead (addr : FlashAddr) (len : Cursor) (s : State) : Host.Outcome State Fault Refusal :=
  beginWith len.toNat (armRead addr len.toNat) s

/-- BEGIN_WRITE (R218 to R223); the stream check of R278 was made when the command was decoded. -/
def execBeginWrite (addr : FlashAddr) (payload : List Byte) (s : State) : Host.Outcome State Fault Refusal :=
  beginWith payload.length (armWrite addr payload) s

/-- STEP (R224). -/
def execStep (s : State) : Host.Outcome State Fault Refusal :=
  match s.seq with
  | .idle => .next (stepIdle s)
  | .readArmed => .next (stepReadArmed s)
  | .writeArmed => .next (stepWriteArmed s)
  | .readWaiting => outcomeOf (stepWaiting readDone s)
  | .writeWaiting => outcomeOf (stepWaiting .ok s)
  | .stalled => .next (stepStalled s)

/-- IS_IDLE (R225). -/
def execIsIdle (s : State) : Host.Outcome State Fault Refusal := .next (returnIdle (isIdleState s) s)

/-- ABORT (R228): the disable comes first, and only when `IE = 1` (R229). -/
def execAbort (s : State) : Host.Outcome State Fault Refusal :=
  .next (returnResult .ok (toIdle (if s.ie then irqDisable .sequencer s else s)))

end Sys2Proof.Machine
end

