-- ==== Sys2Proof/Machine/Dispatch.lean ====
section
/-! DEFINITION. The dispatch: one arm per constructor of `Instr`. -/

namespace Sys2Proof.Machine

/-- One instruction, run in a state. -/
def exec (i : Instr) (s : State) : Host.Outcome State Fault Refusal :=
  match i with
  | .initBus => Sys2Proof.Machine.execInitBus s
  | .beginRead addr len => Sys2Proof.Machine.execBeginRead addr len s
  | .beginWrite addr payload => Sys2Proof.Machine.execBeginWrite addr payload s
  | .step => Sys2Proof.Machine.execStep s
  | .isIdle => Sys2Proof.Machine.execIsIdle s
  | .abort => Sys2Proof.Machine.execAbort s
  | .pump => Sys2Proof.Machine.execPump s
  | .flashStatus => Sys2Proof.Machine.execFlashStatus s
  | .flashRead => Sys2Proof.Machine.execFlashRead s
  | .flashId => Sys2Proof.Machine.execFlashId s
  | .flashWrite => Sys2Proof.Machine.execFlashWrite s
  | .flashErase => Sys2Proof.Machine.execFlashErase s
  | .flashWriteEnable => Sys2Proof.Machine.execFlashWriteEnable s
  | .flashBuffer2WriteEnable => Sys2Proof.Machine.execFlashBuffer2WriteEnable s
  | .flashBuffer2Write => Sys2Proof.Machine.execFlashBuffer2Write s
  | .flashBuffer2Commit => Sys2Proof.Machine.execFlashBuffer2Commit s

end Sys2Proof.Machine
end

