-- ==== Sys2Proof/Machine/Fetch.lean ====
section
/-! DEFINITION. Who moves next, and with which instruction.  SFTB fetches nothing from a memory (R31): a step takes the
next move of the outside world (log entry 6). -/

namespace Sys2Proof.Machine

/-- What the next move is. -/
inductive Fetched where
  /-- an instruction to run in a state that has consumed its input -/
  | run (i : Instr) (s : State)
  /-- a move that is no instruction: the block waits (R312), or is reset (R310) -/
  | settle (s : State)
  /-- bytes that are no instruction -/
  | refuse (r : Refusal)
  deriving DecidableEq, Repr

/-- The refusal each decode error is reported as (R284, R285). -/
def refusalOf : DecodeError → Refusal
  | .reservedCommand => .reservedCommand
  | .malformedCommand => .malformedCommand
  | .truncatedDescriptor => .truncatedDescriptor
  | .unknownFrameOpcode => .unknownFrameOpcode

/-- The host's turn: its next command, consumed with its payload whatever becomes of it (R110; decision D34 of the
spec); with no command issued the block waits (R312). -/
def fetchHost (s : State) : Fetched :=
  match s.host with
  | [] => .settle s
  | _ :: _ =>
    match decode .host s.host with
    | .ok (i, rest) => .run i { s with host := rest }
    | .error e => .refuse (refusalOf e)

/-- The next move.  When the outside world names none, it is the host's turn. -/
def fetch (s : State) : Fetched :=
  match s.moves with
  | [] => fetchHost s
  | .host :: ms => fetchHost { s with moves := ms }
  | .ready k rx :: ms => .run .pump (takeReady k rx { s with moves := ms })
  | .frameByte b :: ms =>
    match decode .wire [b] with
    | .ok (i, _) => .run i { s with moves := ms }
    | .error e => .refuse (refusalOf e)
  | .reset buf :: ms => .settle (hardReset buf { s with moves := ms })

/-- A state whose next move is the instruction of an opcode-table word (log entry 17). -/
def placeWord (s : State) (nbits w : Nat) : State :=
  match tableChannel nbits with
  | .host => { s with host := tableBytes nbits w ++ s.host, moves := .host :: s.moves }
  | .wire => { s with moves := .frameByte (BitVec.ofNat 8 w) :: s.moves }
  | .event => { s with moves := .ready s.txFree s.rxOffer :: s.moves, ie := true }

end Sys2Proof.Machine
end

