-- ==== Sys2Proof/Machine/Step.lean ====
section
/-! DEFINITION. One step of the machine: the next move, run. -/

namespace Sys2Proof.Machine

/-- One atomic step of one agent, or one move of the environment (R8, R80). -/
def step (s : State) : Host.Outcome State Fault Refusal :=
  match fetch s with
  | .run i t => exec i t
  | .settle t => .next t
  | .refuse r => .refused r

/-- `s` with an opcode-table word placed where the next step takes it from (log entry 17). -/
def State.withFetchWord (s : State) (nbits w : Nat) : State := placeWord s nbits w

end Sys2Proof.Machine
end

