-- ==== Sys2Proof/Machine/Script.lean ====
section
/-! DEFINITION. The script notation of R117 to R119: command lines, pseudo-commands and harness directives, read into
commands of the host stream and moves of the environment.  It is notation around the block; no step uses it. -/

namespace Sys2Proof.Machine

/-! ### Words of a line -/

/-- A token of a script line (R117, R119). -/
inductive Tok where
  | word (cs : List Char)
  | comma
  | lbracket
  | rbracket
  | equals
  deriving DecidableEq, Repr

/-- End the word collected so far (its characters in reverse), if there is one. -/
def endWord (acc : List Char) (ts : List Tok) : List Tok :=
  match acc with
  | [] => ts
  | _ :: _ => .word acc.reverse :: ts

/-- The tokens of a line; `;` starts a comment (R117). -/
def tokens : List Char → List Char → List Tok
  | [], acc => endWord acc []
  | c :: cs, acc =>
    if c = ';' then endWord acc []
    else if c = ' ' then endWord acc (tokens cs [])
    else if c = ',' then endWord acc (.comma :: tokens cs [])
    else if c = '[' then endWord acc (.lbracket :: tokens cs [])
    else if c = ']' then endWord acc (.rbracket :: tokens cs [])
    else if c = '=' then endWord acc (.equals :: tokens cs [])
    else tokens cs (c :: acc)

/-- The value of a hexadecimal digit, either case. -/
def hexDigit (c : Char) : Option Nat :=
  let n := c.toNat
  if 48 ≤ n ∧ n ≤ 57 then some (n - 48)
  else if 65 ≤ n ∧ n ≤ 70 then some (n - 55)
  else if 97 ≤ n ∧ n ≤ 102 then some (n - 87)
  else none

/-- Digits of a base, most significant first. -/
def digits (base : Nat) : Nat → List Char → Option Nat
  | acc, [] => some acc
  | acc, c :: cs =>
    match hexDigit c with
    | some d => if d < base then digits base (acc * base + d) cs else none
    | none => none

/-- A number: decimal, or hexadecimal after `0x` (R117). -/
def number : List Char → Option Nat
  | '0' :: 'x' :: c :: cs => digits 16 0 (c :: cs)
  | c :: cs => digits 10 0 (c :: cs)
  | [] => none

/-- An item of a byte list: one or two hexadecimal digits, with or without `0x` (R117). -/
def byteItem : List Char → Option Byte
  | ['0', 'x', c] => (digits 16 0 [c]).map (BitVec.ofNat 8)
  | ['0', 'x', c, d] => (digits 16 0 [c, d]).map (BitVec.ofNat 8)
  | [c] => (digits 16 0 [c]).map (BitVec.ofNat 8)
  | [c, d] => (digits 16 0 [c, d]).map (BitVec.ofNat 8)
  | _ => none

/-- The rest of a byte list after its `[`; items are separated by spaces or commas, and `]` ends the line (R117). -/
def byteList : List Tok → Option (List Byte)
  | [.rbracket] => some []
  | .comma :: ts => byteList ts
  | .word cs :: ts =>
    match byteItem cs, byteList ts with
    | some b, some bs => some (b :: bs)
    | _, _ => none
  | _ => none

/-! ### Lines -/

/-- What a line says. -/
inductive Line where
  /-- nothing but a comment -/
  | blank
  /-- commands, after the expansion of pseudo-commands (R117, R118) -/
  | commands (is : List Instr)
  /-- `.pump tx=K rx=[…]` (R119) -/
  | pump (txFree : Nat) (rx : List Byte)
  /-- `.pump echo` (R119) -/
  | echo
  deriving DecidableEq, Repr

/-- `bread A, N` if `A` fits in 24 bits and `N` in 16 (R117). -/
def breadOf (a n : List Char) : Option Instr :=
  match number a, number n with
  | some a, some n =>
    if a < 2 ^ 24 ∧ n < 2 ^ 16 then some (.beginRead (BitVec.ofNat 24 a) (BitVec.ofNat 16 n)) else none
  | _, _ => none

/-- `bwrite A, [bytes]` if `A` fits in 24 bits and the number of bytes in 16 (R117). -/
def bwriteOf (a : List Char) (list : List Tok) : Option Instr :=
  match number a, byteList list with
  | some a, some bs =>
    if a < 2 ^ 24 ∧ bs.length < 2 ^ 16 then some (.beginWrite (BitVec.ofNat 24 a) bs) else none
  | _, _ => none

/-- A line of one word (R117). -/
def wordLine (w : List Char) : Option Line :=
  if w = ['i', 'n', 'i', 't'] then some (.commands [.initBus])
  else if w = ['s', 't', 'e', 'p'] then some (.commands [.step])
  else if w = ['i', 's', 'i', 'd', 'l', 'e'] then some (.commands [.isIdle])
  else if w = ['a', 'b', 'o', 'r', 't'] then some (.commands [.abort])
  else none

/-- `poll K` (R118) and `.pump echo` (R119). -/
def twoWordLine (w v : List Char) : Option Line :=
  if w = ['p', 'o', 'l', 'l'] then (number v).map (fun k => .commands (List.replicate k .step))
  else if w = ['.', 'p', 'u', 'm', 'p'] ∧ v = ['e', 'c', 'h', 'o'] then some .echo
  else none

/-- `bread A, N` (R117) and `read A, N`, which also enables (R118). -/
def readLine (w a n : List Char) : Option Line :=
  if w = ['b', 'r', 'e', 'a', 'd'] then (breadOf a n).map (fun i => .commands [i])
  else if w = ['r', 'e', 'a', 'd'] then (breadOf a n).map (fun i => .commands [i, .step])
  else none

/-- `bwrite A, [bytes]` (R117) and `write A, [bytes]`, which also enables (R118). -/
def writeLine (w a : List Char) (list : List Tok) : Option Line :=
  if w = ['b', 'w', 'r', 'i', 't', 'e'] then (bwriteOf a list).map (fun i => .commands [i])
  else if w = ['w', 'r', 'i', 't', 'e'] then (bwriteOf a list).map (fun i => .commands [i, .step])
  else none

/-- `.pump tx=K rx=[…]` (R119). -/
def pumpLine (w t k r : List Char) (list : List Tok) : Option Line :=
  if w = ['.', 'p', 'u', 'm', 'p'] ∧ t = ['t', 'x'] ∧ r = ['r', 'x'] then
    match number k, byteList list with
    | some k, some rx => some (.pump k rx)
    | _, _ => none
  else none

/-- One script line, or `none` where the assembler rejects it (R117 to R119; log entry 23). -/
def parseLine (cs : List Char) : Option Line :=
  match tokens cs [] with
  | [] => some .blank
  | [.word w] => wordLine w
  | [.word w, .word v] => twoWordLine w v
  | [.word w, .word a, .comma, .word n] => readLine w a n
  | .word w :: .word a :: .comma :: .lbracket :: list => writeLine w a list
  | .word w :: .word t :: .equals :: .word k :: .word r :: .equals :: .lbracket :: list => pumpLine w t k r list
  | _ => none

/-! ### Lines as inputs -/

/-- The bytes the block handed to the bus, oldest first. -/
def sentBytes : List Event → List Byte
  | [] => []
  | e :: es =>
    match e.prim with
    | .busTx b => b :: sentBytes es
    | _ => sentBytes es

/-- The next bytes an invocation with an always free transmit slot sends (R143). -/
def nextBurst (s : State) : List Byte :=
  Memory.readRange s.buf s.snd.toNat (min (s.wr.toNat - s.snd.toNat) Config.burst)

/-- A loopback bus's receive queue during the next invocation: the bytes in flight, then the ones it sends (R119; log
entry 22). -/
def echoOffer (s : State) : List Byte :=
  let sent := sentBytes s.history
  sent.drop (sent.length - s.inflight) ++ nextBurst s

/-- Put a line's inputs behind those that are waiting; a `.pump` directive is allowed only while `IE = 1` (R119). -/
def issueLine (l : Line) (s : State) : Option State :=
  match l with
  | .blank => some s
  | .commands is =>
    some { s with host := s.host ++ is.flatMap encode, moves := s.moves ++ List.replicate is.length .host }
  | .pump k rx => if s.ie then some { s with moves := s.moves ++ [.ready k rx] } else none
  | .echo => if s.ie then some { s with moves := s.moves ++ [.ready Config.burst (echoOffer s)] } else none

end Sys2Proof.Machine
end

