-- ==== Sys2Proof/Safety.lean ====
section
/-! DEFINITION. What counts as a good state and a dutiful bus, in the terms the claims use. -/

namespace Sys2Proof.Machine

/-! ### Invariants of the block -/

/-- The buffer invariant (R48): `0 ≤ SND ≤ WR ≤ 524` and `0 ≤ RCV ≤ WR`. -/
def CursorsOk (s : State) : Prop :=
  s.snd.toNat ≤ s.wr.toNat ∧ s.wr.toNat ≤ Config.capacity ∧ s.rcv.toNat ≤ s.wr.toNat

/-- The enable invariant (R50). -/
def EnableOk (s : State) : Prop :=
  s.ie = true → isWaiting s = true ∧ s.rcv.toNat < s.wr.toNat ∧ s.ovr = false

/-- What an Armed state leaves for the enabling STEP: cursors at 0, a frame of at least one byte, no overrun (R50, R172,
R173). -/
def ArmedOk (s : State) : Prop :=
  isArmed s = true → s.snd = 0 ∧ s.rcv = 0 ∧ 0 < s.wr.toNat ∧ s.ovr = false

/-- In a Waiting state without overrun, an incomplete transfer is still enabled (R179): completion by the cursors and
completion by PUMP's disable agree. -/
def WaitingOk (s : State) : Prop :=
  isWaiting s = true → s.ovr = false → isComplete s = false → s.ie = true

/-- Outside Idle the bus has been configured (R212). -/
def BootOk (s : State) : Prop := s.seq ≠ .idle → s.busCfg = true

/-- Both memories are in canonical form, and the buffer lists no index at or above `CAPACITY` (R71). -/
def MemoriesOk (s : State) : Prop :=
  Memory.wf s.buf ∧ Memory.within s.buf Config.capacity ∧ Memory.wf s.store

/-- Does an event enable `HR`? -/
def isEnable (e : Event) : Bool := decide (e.prim = .irqEnable .hr)

/-- Does an event disable `HR`? -/
def isDisable (e : Event) : Bool := decide (e.prim = .irqDisable .hr)

/-- The history and `IE` agree (R37, R153, R187): every enable has been followed by exactly one disable, but for the
one still standing while `IE = 1`. -/
def LedgerOk (s : State) : Prop :=
  s.history.countP isEnable = s.history.countP isDisable + s.ie.toNat

/-- The invariants of R48, R50, R153, R179 and R212 and the canonical form of memory, together. -/
structure Good (s : State) : Prop where
  cursors : CursorsOk s
  enable : EnableOk s
  armed : ArmedOk s
  waiting : WaitingOk s
  boot : BootOk s
  memories : MemoriesOk s
  ledger : LedgerOk s

/-! ### The duty of the bus -/

/-- How many bytes an invocation sends: `min(K, WR - SND, 8)` (R143). -/
def sentCount (s : State) : Nat := min s.txFree (min (s.wr.toNat - s.snd.toNat) Config.burst)

/-- How many bytes an invocation receives: no more than are offered, than the frame has room for, and than a burst
(R145, R146). -/
def rcvdCount (s : State) : Nat := min s.rxOffer.length (min (s.wr.toNat - s.rcv.toNat) Config.burst)

/-- Does the bounds check of R146 fire?  A pass of the receive loop finds a byte offered while `RCV == WR`. -/
def overrunNow (s : State) : Bool :=
  decide (rcvdCount s < s.rxOffer.length ∧ rcvdCount s < Config.burst)

/-- BD1 for one invocation (R290): the bus offers no more bytes than are in flight once the transmit loop is over. -/
def BusDuty (s : State) : Prop := s.rxOffer.length ≤ s.inflight + sentCount s

/-- The full-duplex account of an enabled operation (R49): every byte sent is received or in flight. -/
def DuplexOk (s : State) : Prop := s.ie = true → s.snd.toNat = s.rcv.toNat + s.inflight

/-! ### Inputs and polls -/

/-- It is the host's turn (log entry 6): the outside world names no move, or names the host. -/
def HostTurn (s : State) : Prop := s.moves.head? = none ∨ s.moves.head? = some .host

/-- `n` polls (R20): STEP commands with nothing between them. -/
def polls : Nat → State → Host.Outcome State Fault Refusal
  | 0, s => .next s
  | n + 1, s =>
    match exec .step s with
    | .next t => polls n t
    | .fault f => .fault f
    | .refused r => .refused r

end Sys2Proof.Machine
end

