-- ==== Sys2Proof/Certificates/Slice0/Obligations.lean ====
section
/-! DEFINITION. The statements for the provers. -/

open Sys2Proof Sys2Proof.Machine

/-! ### Encoding and fetch -/

/-- Words written out from R105, R107, R108 and the opcode table decode to the instructions they stand for; a
BEGIN_WRITE word's payload bytes, above the table's bits, are zeros. -/
def Obligations.SpecWordsDecode : Prop :=
  decodeTableWord 64 0x0000000000000001 = some .initBus ∧
  decodeTableWord 64 0x0000000400010002 = some (.beginRead 0x000100#24 4#16) ∧
  decodeTableWord 64 0x0000000100001003 = some (.beginWrite 0x000010#24 [0x00#8]) ∧
  decodeTableWord 64 0x0000000000000006 = some .abort ∧
  decodeTableWord 64 0x0000000000000104 = none ∧
  decodeTableWord 8 0xE8 = some .flashRead ∧
  decodeTableWord 0 0 = some .pump

/-- Decoding undoes encoding, for every well-formed instruction on its channel and whatever follows it (R105, R107 to
R111).  The order of a descriptor's bytes in the stream is the model's choice (log entry 1). -/
def Obligations.DecodeUndoesEncode : Prop :=
  ∀ (i : Instr) (rest : List Byte), i.wf = true → decode i.channel (encode i ++ rest) = .ok (i, rest)

/-- Encoding undoes decoding: bytes that decode are the encoding of the instruction they decode to, which is well
formed and of that channel, followed by the rest; so each instruction has one encoding (R107, R108, R115).  The order of
a descriptor's bytes in the stream is the model's choice (log entry 1). -/
def Obligations.EncodeUndoesDecode : Prop :=
  ∀ (c : Channel) (bs rest : List Byte) (i : Instr),
    decode c bs = .ok (i, rest) → i.wf = true ∧ i.channel = c ∧ bs = encode i ++ rest

/-- R284: on the host's turn a descriptor with a reserved `CMD`, nonzero reserved bits, or nonzero unused operand fields
is refused as `ReservedCommand`, in every state and whatever follows it.  The host's turn and the byte order of the
stream are the model's choices (log entries 1 and 6). -/
def Obligations.ReservedDescriptorsAreRefused : Prop :=
  ∀ (s : State) (d : Descriptor) (rest : List Byte),
    HostTurn s → s.host = descriptorBytes d ++ rest →
    ((cmdField d).toNat = 0 ∨ 7 ≤ (cmdField d).toNat ∨ rsv0Field d ≠ 0 ∨ rsv1Field d ≠ 0 ∨
      ((cmdField d).toNat ∈ [1, 4, 5, 6] ∧ (addrField d ≠ 0 ∨ lenField d ≠ 0))) →
    step s = .refused .reservedCommand

/-- R285: a BEGIN_WRITE whose payload stream holds fewer than `LEN` bytes is refused as `MalformedCommand`, whatever the
state (it is the first check of R278).  The host's turn and the byte order of the stream are the model's choices (log
entries 1 and 6). -/
def Obligations.ShortPayloadsAreRefused : Prop :=
  ∀ (s : State) (addr : FlashAddr) (len : Cursor) (stream : List Byte),
    HostTurn s → s.host = descriptorBytes (mkDescriptor 0x3#4 addr len) ++ stream → stream.length < len.toNat →
    step s = .refused .malformedCommand

/-- On the host's turn the step is the decoded command's `exec`, in the state whose stream is past the command and whose
move is used up (R109, R110; whose turn it is: log entry 6). -/
def Obligations.StepRunsTheHostsCommand : Prop :=
  ∀ (s : State) (i : Instr) (rest : List Byte),
    HostTurn s → decode .host s.host = .ok (i, rest) →
    step s = exec i { s with moves := s.moves.tail, host := rest }

/-- A hardware-ready event runs PUMP with that event's draws; a frame byte 0 runs the opcode it names (R18, R120, R140;
the moves: log entries 6, 7 and 9). -/
def Obligations.StepRunsTheEvent : Prop :=
  (∀ (s : State) (k : Nat) (rx : List Byte) (ms : List Move), s.moves = .ready k rx :: ms →
    step s = exec .pump { s with moves := ms, txFree := k, rxOffer := rx }) ∧
  (∀ (s : State) (b : Byte) (i : Instr) (rest : List Byte) (ms : List Move), s.moves = .frameByte b :: ms →
    decode .wire [b] = .ok (i, rest) → step s = exec i { s with moves := ms })

/-- R219, R222: a BEGIN_WRITE that arrives while the block is not Idle returns `OperationInProgress`, its payload stream
is consumed all the same, and nothing else changes (whose turn it is: log entry 6). -/
def Obligations.RejectedWriteConsumesItsStream : Prop :=
  ∀ (s : State) (addr : FlashAddr) (payload rest : List Byte),
    HostTurn s → s.host = encode (.beginWrite addr payload) ++ rest → payload.length < 65536 →
    s.busCfg = true → s.seq ≠ .idle →
    step s = .next { s with moves := s.moves.tail, host := rest, results := s.results ++ [0x01#8] }

/-- The nine frame opcodes are recognised by value, no other value of frame byte 0 is, and being recognised leaves the
block as it is; this is the model's reading of R250, R251 to R259 and R260 (log entry 9). -/
def Obligations.FrameOpcodesLeaveTheBlockAlone : Prop :=
  (∀ s : State,
    exec .flashStatus s = .next s ∧ exec .flashRead s = .next s ∧ exec .flashId s = .next s ∧
    exec .flashWrite s = .next s ∧ exec .flashErase s = .next s ∧ exec .flashWriteEnable s = .next s ∧
    exec .flashBuffer2WriteEnable s = .next s ∧ exec .flashBuffer2Write s = .next s ∧
    exec .flashBuffer2Commit s = .next s) ∧
  (∀ (s : State) (b : Byte) (ms : List Move), s.moves = .frameByte b :: ms →
    step s = if b.toNat ∈ [0xD7, 0xE8, 0x9F, 0x82, 0x81, 0x88, 0x89, 0x85, 0x87] then .next { s with moves := ms }
      else .refused .unknownFrameOpcode)

/-! ### INIT_BUS and the begin commands -/

/-- R210: INIT_BUS is the descriptor 1; while `BUSCFG = 0` it configures the bus, sets `BUSCFG`, returns `Ok`, and
changes nothing else. -/
def Obligations.InitBusConfiguresOnce : Prop :=
  (∀ rest : List Byte, decodeDescriptor 0x0000000000000001#64 rest = .ok (.initBus, rest)) ∧
  ∀ s : State, s.busCfg = false →
    exec .initBus s = .next { s with
      busCfg := true
      history := s.history ++ [{ agent := .sequencer, prim := .busConfigure }]
      results := s.results ++ [0x00#8] }

/-- R281: a begin command while `BUSCFG = 0`, or INIT_BUS while `BUSCFG = 1`, is the fault `ProtocolViolation`. -/
def Obligations.BootOrderFaults : Prop :=
  (∀ s : State, s.busCfg = true → exec .initBus s = .fault (.protocolViolation .secondInitBus)) ∧
  (∀ (s : State) (addr : FlashAddr) (len : Cursor), s.busCfg = false →
    exec (.beginRead addr len) s = .fault (.protocolViolation .beginBeforeInitBus)) ∧
  (∀ (s : State) (addr : FlashAddr) (payload : List Byte), s.busCfg = false →
    exec (.beginWrite addr payload) s = .fault (.protocolViolation .beginBeforeInitBus))

/-- R172: an accepted BEGIN_READ resets the cursors, writes the 12 header bytes (0xE8, the masked address most
significant byte first, eight 0x00) and no other byte of the buffer, sets `WR = 12 + N` and `STATE = ReadArmed`, records
no event, returns `Ok`, and changes nothing else. -/
def Obligations.BeginReadArms : Prop :=
  ∀ (s : State) (addr : FlashAddr) (len : Cursor),
    s.busCfg = true → s.seq = .idle → s.ovr = false → len.toNat ≤ 512 → Memory.wf s.buf →
    ∃ buf : Memory,
      exec (.beginRead addr len) s = .next { s with
        seq := .readArmed
        snd := 0
        rcv := 0
        wr := BitVec.ofNat 16 (12 + len.toNat)
        buf := buf
        results := s.results ++ [0x00#8] } ∧
      Memory.readRange buf 0 12 =
        [0xE8#8, (addr &&& 0x3FF#24).extractLsb' 16 8, (addr &&& 0x3FF#24).extractLsb' 8 8,
          (addr &&& 0x3FF#24).extractLsb' 0 8, 0x00#8, 0x00#8, 0x00#8, 0x00#8, 0x00#8, 0x00#8, 0x00#8, 0x00#8] ∧
      ∀ a, 12 ≤ a → Memory.read buf a = Memory.read s.buf a

/-- R173: an accepted BEGIN_WRITE resets the cursors, writes 0x82, the masked address most significant byte first
and the payload, and no other byte of the buffer, sets `WR = 4 + N` and `STATE = WriteArmed`, records no event, returns
`Ok`, and changes nothing else. -/
def Obligations.BeginWriteArms : Prop :=
  ∀ (s : State) (addr : FlashAddr) (payload : List Byte),
    s.busCfg = true → s.seq = .idle → s.ovr = false → payload.length ≤ 512 → Memory.wf s.buf →
    ∃ buf : Memory,
      exec (.beginWrite addr payload) s = .next { s with
        seq := .writeArmed
        snd := 0
        rcv := 0
        wr := BitVec.ofNat 16 (4 + payload.length)
        buf := buf
        results := s.results ++ [0x00#8] } ∧
      Memory.readRange buf 0 (4 + payload.length) =
        [0x82#8, (addr &&& 0x3FF#24).extractLsb' 16 8, (addr &&& 0x3FF#24).extractLsb' 8 8,
          (addr &&& 0x3FF#24).extractLsb' 0 8] ++ payload ∧
      ∀ a, 4 + payload.length ≤ a → Memory.read buf a = Memory.read s.buf a

/-- R216, R222: a begin command while `STATE ≠ Idle` returns `OperationInProgress` and changes nothing else, whatever
`OVR` and `N` are. -/
def Obligations.BusyBeginIsRejected : Prop :=
  ∀ s : State, s.busCfg = true → s.seq ≠ .idle →
    (∀ (addr : FlashAddr) (len : Cursor),
      exec (.beginRead addr len) s = .next { s with results := s.results ++ [0x01#8] }) ∧
    (∀ (addr : FlashAddr) (payload : List Byte),
      exec (.beginWrite addr payload) s = .next { s with results := s.results ++ [0x01#8] })

/-- R38, R214, R220: only PUMP sets `OVR`, no command and no invocation clears it, reset clears it, and while it is 1 a
begin command in Idle returns `BufferOverrun` and changes nothing else, so that no operation is armed until reset. -/
def Obligations.OverrunIsStickyAndBlocksBegin : Prop :=
  State.reset.ovr = false ∧
  (∀ (s : State) (buf : List Byte), (hardReset buf s).ovr = false) ∧
  (∀ (i : Instr) (s t : State), exec i s = .next t →
    (s.ovr = false → t.ovr = true → i = .pump) ∧
    (s.ovr = true → t.ovr = true ∧ (isArmed t = true → t.seq = s.seq))) ∧
  ∀ s : State, s.busCfg = true → s.seq = .idle → s.ovr = true →
    (∀ (addr : FlashAddr) (len : Cursor),
      exec (.beginRead addr len) s = .next { s with results := s.results ++ [0x02#8] }) ∧
    (∀ (addr : FlashAddr) (payload : List Byte),
      exec (.beginWrite addr payload) s = .next { s with results := s.results ++ [0x02#8] })

/-- R215, R221: a begin command with `STATE = Idle`, `OVR = 0` and `N > 512` returns `BufferOverrun` and changes nothing
else: `OVR` is not set. -/
def Obligations.TooLongBeginIsRejected : Prop :=
  ∀ s : State, s.busCfg = true → s.seq = .idle → s.ovr = false →
    (∀ (addr : FlashAddr) (len : Cursor), 512 < len.toNat →
      exec (.beginRead addr len) s = .next { s with results := s.results ++ [0x02#8] }) ∧
    (∀ (addr : FlashAddr) (payload : List Byte), 512 < payload.length →
      exec (.beginWrite addr payload) s = .next { s with results := s.results ++ [0x02#8] })

/-- R76, R103: the frame of an accepted begin command carries the caller's address modulo 1024, most significant byte
first; its high byte is 0x00 and its middle byte at most 0x03, for READ and for WRITE. -/
def Obligations.FramesStayInThePage : Prop :=
  ∀ (addr : FlashAddr) (s t : State), Memory.wf s.buf → s.seq = .idle → t.seq ≠ .idle →
    ((∃ len, exec (.beginRead addr len) s = .next t) ∨ ∃ payload, exec (.beginWrite addr payload) s = .next t) →
    Memory.read t.buf 1 = 0x00#8 ∧ (Memory.read t.buf 2).toNat ≤ 3 ∧
    (Memory.read t.buf 2).toNat * 256 + (Memory.read t.buf 3).toNat = addr.toNat % 1024

/-! ### STEP -/

/-- R175, R184: STEP in Idle returns `Ok` and STEP in Stalled returns `Stalled`; neither does anything else, and Stalled
is left only by ABORT. -/
def Obligations.StepRestsInIdleAndStalled : Prop :=
  (∀ s : State, s.seq = .idle → exec .step s = .next { s with results := s.results ++ [0x00#8] }) ∧
  (∀ s : State, s.seq = .stalled → exec .step s = .next { s with results := s.results ++ [0x03#8] }) ∧
  (∀ (i : Instr) (s t : State), s.seq = .stalled → exec i s = .next t → t.seq ≠ .stalled → i = .abort)

/-- R176: STEP in ReadArmed enables `HR`, then sets its priority, clears `STALL_CNT`, moves to ReadWaiting, returns `Ok`,
and changes nothing else. -/
def Obligations.StepEnablesArmedRead : Prop :=
  ∀ s : State, s.seq = .readArmed →
    exec .step s = .next { s with
      seq := .readWaiting
      ie := true
      stallCnt := 0
      hrPriority := s.params.irqPriority
      history := s.history ++ [{ agent := .sequencer, prim := .irqEnable .hr },
        { agent := .sequencer, prim := .irqSetPriority .hr s.params.irqPriority }]
      results := s.results ++ [0x00#8] }

/-- R178: STEP in WriteArmed enables `HR`, clears `STALL_CNT`, moves to WriteWaiting, returns `Ok`, and changes nothing
else; no priority is set. -/
def Obligations.StepEnablesArmedWrite : Prop :=
  ∀ s : State, s.seq = .writeArmed →
    exec .step s = .next { s with
      seq := .writeWaiting
      ie := true
      stallCnt := 0
      history := s.history ++ [{ agent := .sequencer, prim := .irqEnable .hr }]
      results := s.results ++ [0x00#8] }

/-- R181 for a read, and the same for a write (R182): STEP in a Waiting state with `OVR = 1` clears `STALL_CNT`, moves to
Idle, returns `BufferOverrun` and does nothing else, even if the transfer is complete or the stall limit is reached. -/
def Obligations.StepReportsOverrunFirst : Prop :=
  ∀ s : State, s.seq = .readWaiting ∨ s.seq = .writeWaiting → s.ovr = true →
    exec .step s = .next { s with seq := .idle, stallCnt := 0, results := s.results ++ [0x02#8] }

/-- R180, R283: STEP in ReadWaiting with `OVR = 0` and `RCV == WR` copies `BUF[0 .. WR)` into the ExternalStore from its
cursor 0 in index order, leaves every other byte of the store, clears `STALL_CNT`, moves to Idle, returns `Ok`, and
changes nothing else, whatever the stall limit.  In a store of fewer than `WR` bytes the append that finds it full is
the fault `StoreOverflow`.  The premise on `WR` is R48. -/
def Obligations.StepCopiesCompletedRead : Prop :=
  ∀ s : State, s.seq = .readWaiting → s.ovr = false → s.rcv = s.wr → s.wr.toNat ≤ 524 → Memory.wf s.store →
    (s.wr.toNat ≤ s.params.storeCapacity →
      ∃ store : Memory,
        exec .step s = .next { s with
          seq := .idle
          stallCnt := 0
          store := store
          storeCur := s.wr.toNat
          history := s.history ++ [{ agent := .sequencer, prim := .storeReset }] ++
            (Memory.readRange s.buf 0 s.wr.toNat).map (fun b => { agent := .sequencer, prim := .storeAppend b })
          results := s.results ++ [0x00#8] } ∧
        (∀ a, a < s.wr.toNat → Memory.read store a = Memory.read s.buf a) ∧
        (∀ a, s.wr.toNat ≤ a → Memory.read store a = Memory.read s.store a)) ∧
    (s.params.storeCapacity < s.wr.toNat → exec .step s = .fault (.storeOverflow s.params.storeCapacity))

/-- R182: STEP in WriteWaiting with `OVR = 1` returns `BufferOverrun`, and with `OVR = 0` and `RCV == WR` returns `Ok`;
either way `STALL_CNT <- 0`, `STATE <- Idle`, and nothing else changes. -/
def Obligations.StepFinishesWrite : Prop :=
  (∀ s : State, s.seq = .writeWaiting → s.ovr = true →
    exec .step s = .next { s with seq := .idle, stallCnt := 0, results := s.results ++ [0x02#8] }) ∧
  (∀ s : State, s.seq = .writeWaiting → s.ovr = false → s.rcv = s.wr →
    exec .step s = .next { s with seq := .idle, stallCnt := 0, results := s.results ++ [0x00#8] })

/-- R183: STEP in a Waiting state with `OVR = 0` and `RCV != WR` counts a poll, saturating; with no limit, or with the
limit not reached, that is all and the result is `Ok`; when the counter reaches the limit it disables `HR`, moves to
Stalled and returns `Stalled`. -/
def Obligations.StepAppliesStallRule : Prop :=
  ∀ s : State, s.seq = .readWaiting ∨ s.seq = .writeWaiting → s.ovr = false → s.rcv ≠ s.wr →
    ∃ cnt : Count32, cnt.toNat = min (s.stallCnt.toNat + 1) (2 ^ 32 - 1) ∧
      exec .step s =
        match s.params.stallLimit with
        | none => .next { s with stallCnt := cnt, results := s.results ++ [0x00#8] }
        | some limit =>
          if limit.val.toNat ≤ cnt.toNat then
            .next { s with
              stallCnt := cnt
              seq := .stalled
              ie := false
              history := s.history ++ [{ agent := .sequencer, prim := .irqDisable .hr }]
              results := s.results ++ [0x03#8] }
          else .next { s with stallCnt := cnt, results := s.results ++ [0x00#8] }

/-- R185: with `STALL_LIMIT = none`, in a Waiting state with an incomplete transfer and no overrun, any number of STEPs
stays there: each returns `Ok` and changes nothing but `STALL_CNT`. -/
def Obligations.HungBusWaitsForEver : Prop :=
  ∀ (n : Nat) (s : State), s.seq = .readWaiting ∨ s.seq = .writeWaiting → s.ovr = false → s.rcv ≠ s.wr →
    s.params.stallLimit = none →
    ∃ cnt : Count32,
      polls n s = .next { s with stallCnt := cnt, results := s.results ++ List.replicate n 0x00#8 }

/-- R183: with `STALL_LIMIT = L`, `L` polls after the enabling STEP without a PUMP between them end in Stalled with `HR`
disabled, the last poll returns `Stalled`, and every poll before it returned `Ok`. -/
def Obligations.StallLimitBoundsTheWait : Prop :=
  ∀ (s : State) (limit : PollLimit), s.seq = .readWaiting ∨ s.seq = .writeWaiting → s.ovr = false → s.rcv ≠ s.wr →
    s.params.stallLimit = some limit → s.stallCnt = 0 →
    polls limit.val.toNat s = .next { s with
      seq := .stalled
      ie := false
      stallCnt := limit.val
      history := s.history ++ [{ agent := .sequencer, prim := .irqDisable .hr }]
      results := s.results ++ List.replicate (limit.val.toNat - 1) 0x00#8 ++ [0x03#8] }

/-! ### IS_IDLE and ABORT -/

/-- R225, R43: IS_IDLE is the descriptor 5; it returns 0x10 iff `STATE = Idle`, else 0x00, and changes nothing else. -/
def Obligations.IsIdleAnswersOnlyTheState : Prop :=
  (∀ rest : List Byte, decodeDescriptor 0x0000000000000005#64 rest = .ok (.isIdle, rest)) ∧
  (∀ s : State, s.seq = .idle → exec .isIdle s = .next { s with results := s.results ++ [0x10#8] }) ∧
  (∀ s : State, s.seq ≠ .idle → exec .isIdle s = .next { s with results := s.results ++ [0x00#8] })

/-- R226: IS_IDLE changes nothing but the list of results returned, by its own word; and that list is never read: from
two states that differ in it alone, every instruction stops alike, or answers alike and returns the same result.  So
any number of IS_IDLE commands can be inserted anywhere without changing a later result. -/
def Obligations.IsIdleCanBeInserted : Prop :=
  (∀ s : State, ∃ r : Byte, exec .isIdle s = .next { s with results := s.results ++ [r] }) ∧
  ∀ (i : Instr) (s : State) (before : List Byte),
    match exec i s with
    | .next t => ∃ rs : List Byte, t.results = s.results ++ rs ∧
        exec i { s with results := before } = .next { t with results := before ++ rs }
    | .fault f => exec i { s with results := before } = .fault f
    | .refused e => exec i { s with results := before } = .refused e

/-- R228, R229: ABORT is the descriptor 6; in every state it disables `HR` with its event only when `IE = 1`, clears
`STALL_CNT`, moves to Idle, returns `Ok`, and changes nothing else: cursors, buffer, `OVR`, `BUSCFG` and the bytes in
flight stay. -/
def Obligations.AbortReturnsToIdle : Prop :=
  (∀ rest : List Byte, decodeDescriptor 0x0000000000000006#64 rest = .ok (.abort, rest)) ∧
  ∀ s : State,
    exec .abort s = .next { s with
      seq := .idle
      ie := false
      stallCnt := 0
      history := s.history ++ (if s.ie then [{ agent := .sequencer, prim := .irqDisable .hr }] else [])
      results := s.results ++ [0x00#8] }

/-! ### PUMP -/

/-- R141 (with R143, R145, R146, R147): one invocation while `IE = 1` and the cursors keep R48.  It sends
`min(K, WR - SND, 8)` bytes `BUF[SND ..]` in index order, then receives the offered bytes in arrival order at
`BUF[RCV ..]`, at most 8 and never past `WR`; a byte offered while `RCV == WR` stays with the bus and sets `OVR`; an
overrun, or else completion, disables `HR` with one event.  Every other byte of the buffer and every other field is
unchanged.  That `INFLIGHT` stops at 0 is the model's reading (log entry 13). -/
def Obligations.PumpMovesOneBurst : Prop :=
  ∀ s : State, s.ie = true → CursorsOk s → Memory.wf s.buf →
    ∃ buf : Memory,
      exec .pump s = .next { s with
        snd := BitVec.ofNat 16 (s.snd.toNat + sentCount s)
        rcv := BitVec.ofNat 16 (s.rcv.toNat + rcvdCount s)
        buf := buf
        inflight := s.inflight + sentCount s - rcvdCount s
        txFree := s.txFree - sentCount s
        rxOffer := s.rxOffer.drop (rcvdCount s)
        ovr := s.ovr || overrunNow s
        ie := !(overrunNow s || decide (s.rcv.toNat + rcvdCount s = s.wr.toNat))
        history := s.history ++
          (Memory.readRange s.buf s.snd.toNat (sentCount s)).map (fun b => { agent := .pump, prim := .busTx b }) ++
          List.replicate (rcvdCount s) { agent := .pump, prim := .busRx } ++
          (if overrunNow s || decide (s.rcv.toNat + rcvdCount s = s.wr.toNat) then
            [{ agent := .pump, prim := .irqDisable .hr }] else []) } ∧
      (∀ k, k < rcvdCount s → Memory.read buf (s.rcv.toNat + k) = s.rxOffer.getD k 0x00#8) ∧
      (∀ a, a < s.rcv.toNat ∨ s.rcv.toNat + rcvdCount s ≤ a → Memory.read buf a = Memory.read s.buf a)

/-- In any state whatever, an invocation that answers writes only what R141 lists: never `STATE`, `WR`, `STALL_CNT` or
`BUSCFG`, never the ExternalStore or the priority level (R151), no input but the draws, and no result (R141). -/
def Obligations.PumpWritesOnlyItsOwnState : Prop :=
  ∀ s t : State, exec .pump s = .next t →
    t.seq = s.seq ∧ t.wr = s.wr ∧ t.stallCnt = s.stallCnt ∧ t.busCfg = s.busCfg ∧ t.store = s.store ∧
    t.storeCur = s.storeCur ∧ t.hrPriority = s.hrPriority ∧ t.results = s.results ∧ t.params = s.params ∧
    t.host = s.host ∧ t.moves = s.moves ∧ (s.ovr = true → t.ovr = true) ∧ (t.ie = true → s.ie = true)

/-- The model's reading of a hardware-ready event while `IE = 0` (log entry 8; R140 says there is no PUMP step then):
nothing happens. -/
def Obligations.PumpNeedsTheEnable : Prop :=
  ∀ s : State, s.ie = false → exec .pump s = .next s

/-- R148, R152: an invocation from cursors that keep R48 moves at most 8 bytes out and at most 8 in, never backwards, and
with the transmit slot always free it sends exactly 8 or all that is left. -/
def Obligations.BurstIsBounded : Prop :=
  ∀ s t : State, CursorsOk s → exec .pump s = .next t →
    s.snd.toNat ≤ t.snd.toNat ∧ t.snd.toNat ≤ s.snd.toNat + 8 ∧
    s.rcv.toNat ≤ t.rcv.toNat ∧ t.rcv.toNat ≤ s.rcv.toNat + 8 ∧
    (s.ie = true → 8 ≤ s.txFree → t.snd.toNat = min (s.snd.toNat + 8) s.wr.toNat)

/-- R75, R145: received bytes overwrite the frame in place, in arrival order: what `BUF[0 .. RCV)` holds after an
invocation is what it held before, followed by the bytes taken from the bus. -/
def Obligations.ReceivedBytesAccumulate : Prop :=
  ∀ s t : State, CursorsOk s → Memory.wf s.buf → s.ie = true → exec .pump s = .next t →
    Memory.readRange t.buf 0 t.rcv.toNat = Memory.readRange s.buf 0 s.rcv.toNat ++ s.rxOffer.take (rcvdCount s)

/-! ### Invariants -/

/-- Every step, of whichever agent and whatever the environment does, keeps the invariants of R48, R50, R153, R179 and
R212 and the canonical form of memory. -/
def Obligations.EveryStepKeepsGood : Prop :=
  ∀ s t : State, Good s → step s = .next t → Good t

/-- The invariants hold at reset, and at every launch whose memories are in canonical form and whose buffer has no index
at or above 524.  That reset's memories list nothing is the model's choice (log entry 5). -/
def Obligations.LaunchIsGood : Prop :=
  Good State.reset ∧
  ∀ (p : Params) (buf store : Memory) (cur pri : Nat), Memory.wf buf → Memory.within buf 524 → Memory.wf store →
    Good (State.launch p buf store cur pri)

/-- R311: after reset `STATE = Idle`, `IE`, `OVR`, `BUSCFG`, `STALL_CNT` and the cursors are 0, `INFLIGHT = 0` and
the history is empty; the values R311 leaves unspecified are whatever the launch gives. -/
def Obligations.ResetValues : Prop :=
  (∃ (p : Params) (buf store : Memory) (cur pri : Nat), State.reset = State.launch p buf store cur pri) ∧
  ∀ (p : Params) (buf store : Memory) (cur pri : Nat), ∀ s, s = State.launch p buf store cur pri →
    s.seq = .idle ∧ s.ie = false ∧ s.ovr = false ∧ s.busCfg = false ∧ s.stallCnt = 0 ∧ s.wr = 0 ∧ s.snd = 0 ∧
    s.rcv = 0 ∧ s.inflight = 0 ∧ s.history = [] ∧ s.buf = buf ∧ s.store = store ∧ s.storeCur = cur ∧
    s.hrPriority = pri ∧ s.params = p

/-- R313: a reset during an operation gives the block the values of R311, calls no `IrqDisable`, and leaves the bytes in
flight; that it also leaves the ExternalStore and the priority level is the model's reading (log entry 10). -/
def Obligations.ResetKeepsBytesInFlight : Prop :=
  ∀ (s : State) (buf : List Byte) (ms : List Move), s.moves = .reset buf :: ms →
    ∃ t, step s = .next t ∧
      t.seq = .idle ∧ t.ie = false ∧ t.ovr = false ∧ t.busCfg = false ∧ t.stallCnt = 0 ∧ t.wr = 0 ∧ t.snd = 0 ∧
      t.rcv = 0 ∧ t.history = [] ∧ t.inflight = s.inflight ∧ t.rxOffer = s.rxOffer ∧ t.store = s.store ∧
      t.storeCur = s.storeCur ∧ t.hrPriority = s.hrPriority ∧ t.params = s.params ∧ t.host = s.host ∧ t.moves = ms

/-- R49: an operation enabled with nothing in flight, on a bus that keeps BD1, has every byte sent either received or in
flight, through every instruction; so `RCV ≤ SND`, and completion means the whole frame was sent. -/
def Obligations.CursorOrderUnderTheDuty : Prop :=
  ∀ (i : Instr) (s t : State), Good s → DuplexOk s →
    (i = .step → isArmed s = true → s.inflight = 0) → (i = .pump → BusDuty s) →
    exec i s = .next t →
    DuplexOk t ∧
    (i = .pump → s.ie = true → t.rcv.toNat ≤ t.snd.toNat ∧ (t.rcv = t.wr → t.snd = t.wr))

/-- R146, R290: under the bus duty the bounds check of PUMP never fires. -/
def Obligations.DutifulBusNeverOverruns : Prop :=
  ∀ s : State, Good s → DuplexOk s → BusDuty s → s.ovr = false →
    ∃ t, exec .pump s = .next t ∧ t.ovr = false

/-- R75, R100, R143: while the bus keeps its duty, an invocation transmits the frame `F` that was armed, in order and
unspoilt: what it sends is the next part of `F`, and the part of the buffer not yet sent still holds `F`. -/
def Obligations.FrameGoesOutUnspoilt : Prop :=
  ∀ (F : List Byte) (s t : State), Good s → DuplexOk s → BusDuty s → s.ie = true → F.length = s.wr.toNat →
    (∀ a, s.snd.toNat ≤ a → a < s.wr.toNat → Memory.read s.buf a = F.getD a 0x00#8) →
    exec .pump s = .next t →
    sentBytes t.history = sentBytes s.history ++ (F.drop s.snd.toNat).take (t.snd.toNat - s.snd.toNat) ∧
    (∀ a, t.snd.toNat ≤ a → a < t.wr.toNat → Memory.read t.buf a = F.getD a 0x00#8)

/-- R282, R71: a buffer access at index 524 or above is the fault `IndexOutOfRange`, and no state that keeps the
invariants reaches one: with an ExternalStore of at least 524 bytes the only fault left is the boot order's. -/
def Obligations.OnlyTheHostsDutiesFault : Prop :=
  (∀ (i : Nat) (b : Byte) (s : State), 524 ≤ i →
    memRead i s = .error (.indexOutOfRange i) ∧ memWrite i b s = .error (.indexOutOfRange i)) ∧
  ∀ (s : State) (f : Fault), Good s → step s = .fault f →
    (∃ why, f = .protocolViolation why) ∨ (s.params.storeCapacity < 524 ∧ f = .storeOverflow s.params.storeCapacity)

/-! ### Who writes what, in every state -/

/-- R317, R33: `WR` changes only in a begin command, only in Idle and, by the enable invariant, with `IE = 0`; a read
leaves it at 12 to 524 and a write at 4 to 516. -/
def Obligations.WrIsWrittenOnlyByArming : Prop :=
  ∀ (i : Instr) (s t : State), exec i s = .next t → t.wr ≠ s.wr →
    s.seq = .idle ∧ (EnableOk s → s.ie = false) ∧
      (((∃ addr len, i = .beginRead addr len) ∧ 12 ≤ t.wr.toNat ∧ t.wr.toNat ≤ 524) ∨
        ((∃ addr payload, i = .beginWrite addr payload) ∧ 4 ≤ t.wr.toNat ∧ t.wr.toNat ≤ 516))

/-- R149, R51: `SND` and `RCV` change only in PUMP, which runs only while `IE = 1`, and in the arm reset to 0. -/
def Obligations.CursorsAreMovedOnlyByPumpOrArming : Prop :=
  ∀ (i : Instr) (s t : State), exec i s = .next t → t.snd ≠ s.snd ∨ t.rcv ≠ s.rcv →
    (i = .pump ∧ s.ie = true) ∨
      (t.snd = 0 ∧ t.rcv = 0 ∧ s.seq = .idle ∧
        ((∃ addr len, i = .beginRead addr len) ∨ ∃ addr payload, i = .beginWrite addr payload))

/-- R37, R274: only the STEP that leaves an Armed state raises `IE`, and only PUMP on completion or overrun, a stalling
STEP and ABORT lower it. -/
def Obligations.EnableHasFourWriters : Prop :=
  ∀ (i : Instr) (s t : State), exec i s = .next t →
    (s.ie = false → t.ie = true → i = .step ∧ isArmed s = true) ∧
    (s.ie = true → t.ie = false →
      (i = .pump ∧ (t.rcv = t.wr ∨ t.ovr = true)) ∨ (i = .step ∧ t.seq = .stalled) ∨ i = .abort)

/-- R45, R77: the ExternalStore and its cursor change only in the STEP that completes a read; R46: the priority level
changes only in the STEP that leaves ReadArmed. -/
def Obligations.EnvironmentIsWrittenOnlyBySteps : Prop :=
  ∀ (i : Instr) (s t : State), exec i s = .next t →
    (t.store ≠ s.store ∨ t.storeCur ≠ s.storeCur → i = .step ∧ s.seq = .readWaiting ∧ s.rcv = s.wr ∧ s.ovr = false) ∧
    (t.hrPriority ≠ s.hrPriority → i = .step ∧ s.seq = .readArmed ∧ t.hrPriority = s.params.irqPriority)

/-- R171, R186: the transitions of `STATE`, for every instruction and in every state: no others exist. -/
def Obligations.NoOtherTransitionExists : Prop :=
  ∀ (i : Instr) (s t : State), exec i s = .next t → t.seq ≠ s.seq →
    ((∃ addr len, i = .beginRead addr len) ∧ s.seq = .idle ∧ t.seq = .readArmed) ∨
    ((∃ addr payload, i = .beginWrite addr payload) ∧ s.seq = .idle ∧ t.seq = .writeArmed) ∨
    (i = .step ∧ s.seq = .readArmed ∧ t.seq = .readWaiting) ∨
    (i = .step ∧ s.seq = .writeArmed ∧ t.seq = .writeWaiting) ∨
    (i = .step ∧ isWaiting s = true ∧ (t.seq = .idle ∨ t.seq = .stalled)) ∨
    (i = .abort ∧ t.seq = .idle)

/-- R105, R250: a begin command that arms puts 0xE8 or 0x82 into `BUF[0]`, and nothing else of the Sequencer writes the
buffer. -/
def Obligations.OnlyTwoOpcodesAreArmed : Prop :=
  ∀ (i : Instr) (s t : State), Memory.wf s.buf → exec i s = .next t → i ≠ .pump → t.buf ≠ s.buf →
    (Memory.read t.buf 0 = 0xE8#8 ∧ t.seq = .readArmed) ∨ (Memory.read t.buf 0 = 0x82#8 ∧ t.seq = .writeArmed)

/-- R17: the history and the list of results only grow, and no instruction writes the parameters or the inputs of the
host.  The list of results is the model's record (log entry 12). -/
def Obligations.HistoryOnlyGrows : Prop :=
  ∀ (i : Instr) (s t : State), exec i s = .next t →
    (∃ es, t.history = s.history ++ es) ∧ (∃ rs, t.results = s.results ++ rs ∧ rs.length ≤ 1) ∧
    t.params = s.params ∧ t.host = s.host ∧ t.moves = s.moves
end

