-- ==== Sys2Proof/Laws/Memory.lean ====
section
/-! SUPPORT. Laws of byte memories: read after write, and every operation keeps the canonical form. -/

namespace Sys2Proof.Machine

@[simp] theorem Memory.read_nil (a : Nat) : Memory.read [] a = Memory.unlisted a := rfl

theorem Memory.read_place (a : Nat) (b : Byte) (m : Memory) (x : Nat)
    (h : Memory.read m a = Memory.unlisted a) :
    Memory.read (Memory.place a b m) x = if x = a then b else Memory.read m x := by
  unfold Memory.place
  split
  · split
    · subst_vars; exact h
    · rfl
  · rfl

theorem Memory.read_of_lt {m : Memory} {a : Nat} (h : ∀ c ∈ m, a < c.1) : Memory.read m a = Memory.unlisted a := by
  induction m with
  | nil => rfl
  | cons c m ih =>
    have hc : a < c.1 := h c (by simp)
    have : a ≠ c.1 := by omega
    simp only [Memory.read, if_neg this]
    exact ih fun d hd => h d (by simp [hd])

/-- A write is read back at its address and leaves every other address alone. -/
theorem Memory.read_write {m : Memory} (hm : Memory.wf m) (a : Nat) (b : Byte) (x : Nat) :
    Memory.read (Memory.write m a b) x = if x = a then b else Memory.read m x := by
  induction m with
  | nil => exact Memory.read_place a b [] x rfl
  | cons c m ih =>
    obtain ⟨hp, hn⟩ := hm
    rw [List.pairwise_cons] at hp
    have hwf : Memory.wf m := ⟨hp.2, fun d hd => hn d (by simp [hd])⟩
    obtain ⟨a', b'⟩ := c
    simp only [Memory.write]
    split
    · next hlt =>
      refine Memory.read_place a b _ x (Memory.read_of_lt ?_)
      intro d hd
      rcases List.mem_cons.mp hd with rfl | hd
      · exact hlt
      · exact lt_trans hlt (hp.1 d hd)
    · split
      · next heq =>
        subst heq
        rw [Memory.read_place a b m x (Memory.read_of_lt hp.1)]
        by_cases hx : x = a <;> simp [Memory.read, hx]
      · next hne =>
        simp only [Memory.read, ih hwf]
        by_cases hx : x = a'
        · subst hx; rw [if_pos rfl, if_neg (fun h => hne h.symm), if_pos rfl]
        · simp [hx]

theorem Memory.mem_place {a : Nat} {b : Byte} {m : Memory} {c : Host.Cell} (h : c ∈ Memory.place a b m) :
    c = (a, b) ∨ c ∈ m := by
  unfold Memory.place at h
  split at h
  · exact .inr h
  · exact List.mem_cons.mp h

theorem Memory.mem_write {m : Memory} {a : Nat} {b : Byte} {c : Host.Cell} (h : c ∈ Memory.write m a b) :
    c = (a, b) ∨ c ∈ m := by
  induction m with
  | nil => exact Memory.mem_place h
  | cons d m ih =>
    obtain ⟨a', b'⟩ := d
    simp only [Memory.write] at h
    split at h
    · exact Memory.mem_place h
    · split at h
      · rcases Memory.mem_place h with h | h
        · exact .inl h
        · exact .inr (by simp [h])
      · rcases List.mem_cons.mp h with h | h
        · exact .inr (by simp [h])
        · rcases ih h with h | h
          · exact .inl h
          · exact .inr (by simp [h])

theorem Memory.place_wf {a : Nat} {b : Byte} {m : Memory} (hm : Memory.wf m) (h : ∀ c ∈ m, a < c.1) :
    Memory.wf (Memory.place a b m) := by
  unfold Memory.place
  split
  · exact hm
  · next hb =>
    refine ⟨List.pairwise_cons.mpr ⟨h, hm.1⟩, ?_⟩
    intro c hc
    rcases List.mem_cons.mp hc with rfl | hc
    · exact hb
    · exact hm.2 c hc

/-- A write keeps the canonical form. -/
theorem Memory.write_wf {m : Memory} (hm : Memory.wf m) (a : Nat) (b : Byte) : Memory.wf (Memory.write m a b) := by
  induction m with
  | nil => exact Memory.place_wf hm (by simp)
  | cons c m ih =>
    obtain ⟨hp, hn⟩ := hm
    have hp' := List.pairwise_cons.mp hp
    have hwf : Memory.wf m := ⟨hp'.2, fun d hd => hn d (by simp [hd])⟩
    obtain ⟨a', b'⟩ := c
    simp only [Memory.write]
    split
    · next hlt =>
      refine Memory.place_wf ⟨hp, hn⟩ ?_
      intro d hd
      rcases List.mem_cons.mp hd with rfl | hd
      · exact hlt
      · exact lt_trans hlt (hp'.1 d hd)
    · split
      · next heq => subst heq; exact Memory.place_wf hwf hp'.1
      · next hlt hne =>
        have hih := ih hwf
        refine ⟨List.pairwise_cons.mpr ⟨?_, hih.1⟩, ?_⟩
        · intro d hd
          rcases Memory.mem_write hd with rfl | hd
          · show a' < a; omega
          · exact hp'.1 d hd
        · intro d hd
          rcases List.mem_cons.mp hd with rfl | hd
          · exact hn (a', b') (by simp)
          · exact hih.2 d hd

/-- A write below `n` lists nothing at or above `n`. -/
theorem Memory.write_within {m : Memory} {n a : Nat} (hm : Memory.within m n) (ha : a < n) (b : Byte) :
    Memory.within (Memory.write m a b) n := by
  intro c hc
  rcases Memory.mem_write hc with rfl | hc
  · exact ha
  · exact hm c hc

/-! ### Ranges -/

theorem Memory.writeRange_wf {m : Memory} (hm : Memory.wf m) (a : Nat) (bs : List Byte) :
    Memory.wf (Memory.writeRange m a bs) := by
  induction bs generalizing m a with
  | nil => exact hm
  | cons b bs ih => exact ih (Memory.write_wf hm a b) (a + 1)

theorem Memory.writeRange_within {m : Memory} {n a : Nat} (hm : Memory.within m n) (bs : List Byte)
    (ha : a + bs.length ≤ n) : Memory.within (Memory.writeRange m a bs) n := by
  induction bs generalizing m a with
  | nil => exact hm
  | cons b bs ih =>
    simp only [List.length_cons] at ha
    exact ih (Memory.write_within hm (by omega) b) (by omega)

/-- Writing a list of bytes: each is read back at its place, every other address is as before. -/
theorem Memory.read_writeRange {m : Memory} (hm : Memory.wf m) (a : Nat) (bs : List Byte) (x : Nat) :
    Memory.read (Memory.writeRange m a bs) x =
      if h : a ≤ x ∧ x - a < bs.length then bs[x - a]'h.2 else Memory.read m x := by
  induction bs generalizing m a with
  | nil => simp [Memory.writeRange]
  | cons b bs ih =>
    simp only [Memory.writeRange, ih (Memory.write_wf hm a b), Memory.read_write hm, List.length_cons]
    by_cases h1 : a + 1 ≤ x ∧ x - (a + 1) < bs.length
    · have h2 : a ≤ x ∧ x - a < bs.length + 1 := by omega
      have h3 : x - a = (x - (a + 1)) + 1 := by omega
      rw [dif_pos h1, dif_pos h2]
      simp only [h3, List.getElem_cons_succ]
    · by_cases h2 : x = a
      · subst h2
        have h4 : ¬ (x + 1 ≤ x) := by omega
        simp
      · have h3 : ¬ (a ≤ x ∧ x - a < bs.length + 1) := by omega
        simp only [dif_neg h1, dif_neg h3, if_neg h2]

@[simp] theorem Memory.readRange_length (m : Memory) (a n : Nat) : (Memory.readRange m a n).length = n := by
  induction n generalizing a with
  | zero => rfl
  | succ n ih => simp [Memory.readRange, ih]

theorem Memory.readRange_getElem (m : Memory) (a n k : Nat) (h : k < (Memory.readRange m a n).length) :
    (Memory.readRange m a n)[k] = Memory.read m (a + k) := by
  induction n generalizing a k with
  | zero => simp at h
  | succ n ih =>
    cases k with
    | zero => rfl
    | succ k =>
      simp only [Memory.readRange, List.getElem_cons_succ]
      rw [ih]
      congr 1
      omega

theorem Memory.readRange_append (m : Memory) (a n k : Nat) :
    Memory.readRange m a (n + k) = Memory.readRange m a n ++ Memory.readRange m (a + n) k := by
  induction n generalizing a with
  | zero => simp [Memory.readRange]
  | succ n ih =>
    have h : n + 1 + k = (n + k) + 1 := by omega
    have h2 : a + (n + 1) = a + 1 + n := by omega
    simp only [h, Memory.readRange, ih, List.cons_append, h2]

/-! ### Launch contents -/

theorem Memory.ofBytes_bounds (a : Nat) (bs : List Byte) :
    ∀ c ∈ Memory.ofBytes a bs, a ≤ c.1 ∧ c.1 < a + bs.length := by
  induction bs generalizing a with
  | nil => simp [Memory.ofBytes]
  | cons b bs ih =>
    intro c hc
    simp only [List.length_cons]
    rcases Memory.mem_place hc with rfl | hc
    · exact ⟨le_refl _, by omega⟩
    · have := ih (a + 1) c hc
      omega

theorem Memory.ofBytes_wf (a : Nat) (bs : List Byte) : Memory.wf (Memory.ofBytes a bs) := by
  induction bs generalizing a with
  | nil => exact ⟨List.Pairwise.nil, by simp [Memory.ofBytes]⟩
  | cons b bs ih =>
    exact Memory.place_wf (ih (a + 1)) fun c hc => by have := Memory.ofBytes_bounds (a + 1) bs c hc; omega

end Sys2Proof.Machine
end

