-- ==== Sys2Proof/Laws/State.lean ====
section
/-! SUPPORT. One lemma per field per state update, so that no proof unfolds a record update. -/

namespace Sys2Proof.Machine

/-! ### `emit` -/

@[simp] theorem emit_seq (a : Agent) (p : Prim) (s : State) : (emit a p s).seq = s.seq := rfl
@[simp] theorem emit_ie (a : Agent) (p : Prim) (s : State) : (emit a p s).ie = s.ie := rfl
@[simp] theorem emit_ovr (a : Agent) (p : Prim) (s : State) : (emit a p s).ovr = s.ovr := rfl
@[simp] theorem emit_busCfg (a : Agent) (p : Prim) (s : State) : (emit a p s).busCfg = s.busCfg := rfl
@[simp] theorem emit_stallCnt (a : Agent) (p : Prim) (s : State) : (emit a p s).stallCnt = s.stallCnt := rfl
@[simp] theorem emit_wr (a : Agent) (p : Prim) (s : State) : (emit a p s).wr = s.wr := rfl
@[simp] theorem emit_snd (a : Agent) (p : Prim) (s : State) : (emit a p s).snd = s.snd := rfl
@[simp] theorem emit_rcv (a : Agent) (p : Prim) (s : State) : (emit a p s).rcv = s.rcv := rfl
@[simp] theorem emit_buf (a : Agent) (p : Prim) (s : State) : (emit a p s).buf = s.buf := rfl
@[simp] theorem emit_inflight (a : Agent) (p : Prim) (s : State) : (emit a p s).inflight = s.inflight := rfl
@[simp] theorem emit_store (a : Agent) (p : Prim) (s : State) : (emit a p s).store = s.store := rfl
@[simp] theorem emit_storeCur (a : Agent) (p : Prim) (s : State) : (emit a p s).storeCur = s.storeCur := rfl
@[simp] theorem emit_hrPriority (a : Agent) (p : Prim) (s : State) : (emit a p s).hrPriority = s.hrPriority := rfl
@[simp] theorem emit_history (a : Agent) (p : Prim) (s : State) : (emit a p s).history = s.history ++ [{ agent := a, prim := p }] := rfl
@[simp] theorem emit_results (a : Agent) (p : Prim) (s : State) : (emit a p s).results = s.results := rfl
@[simp] theorem emit_params (a : Agent) (p : Prim) (s : State) : (emit a p s).params = s.params := rfl
@[simp] theorem emit_host (a : Agent) (p : Prim) (s : State) : (emit a p s).host = s.host := rfl
@[simp] theorem emit_moves (a : Agent) (p : Prim) (s : State) : (emit a p s).moves = s.moves := rfl
@[simp] theorem emit_txFree (a : Agent) (p : Prim) (s : State) : (emit a p s).txFree = s.txFree := rfl
@[simp] theorem emit_rxOffer (a : Agent) (p : Prim) (s : State) : (emit a p s).rxOffer = s.rxOffer := rfl

/-! ### `busConfigure` -/

@[simp] theorem busConfigure_seq (s : State) : (busConfigure s).seq = s.seq := rfl
@[simp] theorem busConfigure_ie (s : State) : (busConfigure s).ie = s.ie := rfl
@[simp] theorem busConfigure_ovr (s : State) : (busConfigure s).ovr = s.ovr := rfl
@[simp] theorem busConfigure_busCfg (s : State) : (busConfigure s).busCfg = s.busCfg := rfl
@[simp] theorem busConfigure_stallCnt (s : State) : (busConfigure s).stallCnt = s.stallCnt := rfl
@[simp] theorem busConfigure_wr (s : State) : (busConfigure s).wr = s.wr := rfl
@[simp] theorem busConfigure_snd (s : State) : (busConfigure s).snd = s.snd := rfl
@[simp] theorem busConfigure_rcv (s : State) : (busConfigure s).rcv = s.rcv := rfl
@[simp] theorem busConfigure_buf (s : State) : (busConfigure s).buf = s.buf := rfl
@[simp] theorem busConfigure_inflight (s : State) : (busConfigure s).inflight = s.inflight := rfl
@[simp] theorem busConfigure_store (s : State) : (busConfigure s).store = s.store := rfl
@[simp] theorem busConfigure_storeCur (s : State) : (busConfigure s).storeCur = s.storeCur := rfl
@[simp] theorem busConfigure_hrPriority (s : State) : (busConfigure s).hrPriority = s.hrPriority := rfl
@[simp] theorem busConfigure_history (s : State) : (busConfigure s).history = s.history ++ [{ agent := .sequencer, prim := .busConfigure }] := rfl
@[simp] theorem busConfigure_results (s : State) : (busConfigure s).results = s.results := rfl
@[simp] theorem busConfigure_params (s : State) : (busConfigure s).params = s.params := rfl
@[simp] theorem busConfigure_host (s : State) : (busConfigure s).host = s.host := rfl
@[simp] theorem busConfigure_moves (s : State) : (busConfigure s).moves = s.moves := rfl
@[simp] theorem busConfigure_txFree (s : State) : (busConfigure s).txFree = s.txFree := rfl
@[simp] theorem busConfigure_rxOffer (s : State) : (busConfigure s).rxOffer = s.rxOffer := rfl

/-! ### `busTx` -/

@[simp] theorem busTx_seq (b : Byte) (s : State) : (busTx b s).seq = s.seq := rfl
@[simp] theorem busTx_ie (b : Byte) (s : State) : (busTx b s).ie = s.ie := rfl
@[simp] theorem busTx_ovr (b : Byte) (s : State) : (busTx b s).ovr = s.ovr := rfl
@[simp] theorem busTx_busCfg (b : Byte) (s : State) : (busTx b s).busCfg = s.busCfg := rfl
@[simp] theorem busTx_stallCnt (b : Byte) (s : State) : (busTx b s).stallCnt = s.stallCnt := rfl
@[simp] theorem busTx_wr (b : Byte) (s : State) : (busTx b s).wr = s.wr := rfl
@[simp] theorem busTx_snd (b : Byte) (s : State) : (busTx b s).snd = s.snd := rfl
@[simp] theorem busTx_rcv (b : Byte) (s : State) : (busTx b s).rcv = s.rcv := rfl
@[simp] theorem busTx_buf (b : Byte) (s : State) : (busTx b s).buf = s.buf := rfl
@[simp] theorem busTx_inflight (b : Byte) (s : State) : (busTx b s).inflight = s.inflight + 1 := rfl
@[simp] theorem busTx_store (b : Byte) (s : State) : (busTx b s).store = s.store := rfl
@[simp] theorem busTx_storeCur (b : Byte) (s : State) : (busTx b s).storeCur = s.storeCur := rfl
@[simp] theorem busTx_hrPriority (b : Byte) (s : State) : (busTx b s).hrPriority = s.hrPriority := rfl
@[simp] theorem busTx_history (b : Byte) (s : State) : (busTx b s).history = s.history ++ [{ agent := .pump, prim := .busTx b }] := rfl
@[simp] theorem busTx_results (b : Byte) (s : State) : (busTx b s).results = s.results := rfl
@[simp] theorem busTx_params (b : Byte) (s : State) : (busTx b s).params = s.params := rfl
@[simp] theorem busTx_host (b : Byte) (s : State) : (busTx b s).host = s.host := rfl
@[simp] theorem busTx_moves (b : Byte) (s : State) : (busTx b s).moves = s.moves := rfl
@[simp] theorem busTx_txFree (b : Byte) (s : State) : (busTx b s).txFree = s.txFree - 1 := rfl
@[simp] theorem busTx_rxOffer (b : Byte) (s : State) : (busTx b s).rxOffer = s.rxOffer := rfl

/-! ### `busRx` -/

@[simp] theorem busRx_seq (r : List Byte) (s : State) : (busRx r s).seq = s.seq := rfl
@[simp] theorem busRx_ie (r : List Byte) (s : State) : (busRx r s).ie = s.ie := rfl
@[simp] theorem busRx_ovr (r : List Byte) (s : State) : (busRx r s).ovr = s.ovr := rfl
@[simp] theorem busRx_busCfg (r : List Byte) (s : State) : (busRx r s).busCfg = s.busCfg := rfl
@[simp] theorem busRx_stallCnt (r : List Byte) (s : State) : (busRx r s).stallCnt = s.stallCnt := rfl
@[simp] theorem busRx_wr (r : List Byte) (s : State) : (busRx r s).wr = s.wr := rfl
@[simp] theorem busRx_snd (r : List Byte) (s : State) : (busRx r s).snd = s.snd := rfl
@[simp] theorem busRx_rcv (r : List Byte) (s : State) : (busRx r s).rcv = s.rcv := rfl
@[simp] theorem busRx_buf (r : List Byte) (s : State) : (busRx r s).buf = s.buf := rfl
@[simp] theorem busRx_inflight (r : List Byte) (s : State) : (busRx r s).inflight = s.inflight - 1 := rfl
@[simp] theorem busRx_store (r : List Byte) (s : State) : (busRx r s).store = s.store := rfl
@[simp] theorem busRx_storeCur (r : List Byte) (s : State) : (busRx r s).storeCur = s.storeCur := rfl
@[simp] theorem busRx_hrPriority (r : List Byte) (s : State) : (busRx r s).hrPriority = s.hrPriority := rfl
@[simp] theorem busRx_history (r : List Byte) (s : State) : (busRx r s).history = s.history ++ [{ agent := .pump, prim := .busRx }] := rfl
@[simp] theorem busRx_results (r : List Byte) (s : State) : (busRx r s).results = s.results := rfl
@[simp] theorem busRx_params (r : List Byte) (s : State) : (busRx r s).params = s.params := rfl
@[simp] theorem busRx_host (r : List Byte) (s : State) : (busRx r s).host = s.host := rfl
@[simp] theorem busRx_moves (r : List Byte) (s : State) : (busRx r s).moves = s.moves := rfl
@[simp] theorem busRx_txFree (r : List Byte) (s : State) : (busRx r s).txFree = s.txFree := rfl
@[simp] theorem busRx_rxOffer (r : List Byte) (s : State) : (busRx r s).rxOffer = r := rfl

/-! ### `irqEnable` -/

@[simp] theorem irqEnable_seq (a : Agent) (s : State) : (irqEnable a s).seq = s.seq := rfl
@[simp] theorem irqEnable_ie (a : Agent) (s : State) : (irqEnable a s).ie = true := rfl
@[simp] theorem irqEnable_ovr (a : Agent) (s : State) : (irqEnable a s).ovr = s.ovr := rfl
@[simp] theorem irqEnable_busCfg (a : Agent) (s : State) : (irqEnable a s).busCfg = s.busCfg := rfl
@[simp] theorem irqEnable_stallCnt (a : Agent) (s : State) : (irqEnable a s).stallCnt = s.stallCnt := rfl
@[simp] theorem irqEnable_wr (a : Agent) (s : State) : (irqEnable a s).wr = s.wr := rfl
@[simp] theorem irqEnable_snd (a : Agent) (s : State) : (irqEnable a s).snd = s.snd := rfl
@[simp] theorem irqEnable_rcv (a : Agent) (s : State) : (irqEnable a s).rcv = s.rcv := rfl
@[simp] theorem irqEnable_buf (a : Agent) (s : State) : (irqEnable a s).buf = s.buf := rfl
@[simp] theorem irqEnable_inflight (a : Agent) (s : State) : (irqEnable a s).inflight = s.inflight := rfl
@[simp] theorem irqEnable_store (a : Agent) (s : State) : (irqEnable a s).store = s.store := rfl
@[simp] theorem irqEnable_storeCur (a : Agent) (s : State) : (irqEnable a s).storeCur = s.storeCur := rfl
@[simp] theorem irqEnable_hrPriority (a : Agent) (s : State) : (irqEnable a s).hrPriority = s.hrPriority := rfl
@[simp] theorem irqEnable_history (a : Agent) (s : State) : (irqEnable a s).history = s.history ++ [{ agent := a, prim := .irqEnable .hr }] := rfl
@[simp] theorem irqEnable_results (a : Agent) (s : State) : (irqEnable a s).results = s.results := rfl
@[simp] theorem irqEnable_params (a : Agent) (s : State) : (irqEnable a s).params = s.params := rfl
@[simp] theorem irqEnable_host (a : Agent) (s : State) : (irqEnable a s).host = s.host := rfl
@[simp] theorem irqEnable_moves (a : Agent) (s : State) : (irqEnable a s).moves = s.moves := rfl
@[simp] theorem irqEnable_txFree (a : Agent) (s : State) : (irqEnable a s).txFree = s.txFree := rfl
@[simp] theorem irqEnable_rxOffer (a : Agent) (s : State) : (irqEnable a s).rxOffer = s.rxOffer := rfl

/-! ### `irqDisable` -/

@[simp] theorem irqDisable_seq (a : Agent) (s : State) : (irqDisable a s).seq = s.seq := rfl
@[simp] theorem irqDisable_ie (a : Agent) (s : State) : (irqDisable a s).ie = false := rfl
@[simp] theorem irqDisable_ovr (a : Agent) (s : State) : (irqDisable a s).ovr = s.ovr := rfl
@[simp] theorem irqDisable_busCfg (a : Agent) (s : State) : (irqDisable a s).busCfg = s.busCfg := rfl
@[simp] theorem irqDisable_stallCnt (a : Agent) (s : State) : (irqDisable a s).stallCnt = s.stallCnt := rfl
@[simp] theorem irqDisable_wr (a : Agent) (s : State) : (irqDisable a s).wr = s.wr := rfl
@[simp] theorem irqDisable_snd (a : Agent) (s : State) : (irqDisable a s).snd = s.snd := rfl
@[simp] theorem irqDisable_rcv (a : Agent) (s : State) : (irqDisable a s).rcv = s.rcv := rfl
@[simp] theorem irqDisable_buf (a : Agent) (s : State) : (irqDisable a s).buf = s.buf := rfl
@[simp] theorem irqDisable_inflight (a : Agent) (s : State) : (irqDisable a s).inflight = s.inflight := rfl
@[simp] theorem irqDisable_store (a : Agent) (s : State) : (irqDisable a s).store = s.store := rfl
@[simp] theorem irqDisable_storeCur (a : Agent) (s : State) : (irqDisable a s).storeCur = s.storeCur := rfl
@[simp] theorem irqDisable_hrPriority (a : Agent) (s : State) : (irqDisable a s).hrPriority = s.hrPriority := rfl
@[simp] theorem irqDisable_history (a : Agent) (s : State) : (irqDisable a s).history = s.history ++ [{ agent := a, prim := .irqDisable .hr }] := rfl
@[simp] theorem irqDisable_results (a : Agent) (s : State) : (irqDisable a s).results = s.results := rfl
@[simp] theorem irqDisable_params (a : Agent) (s : State) : (irqDisable a s).params = s.params := rfl
@[simp] theorem irqDisable_host (a : Agent) (s : State) : (irqDisable a s).host = s.host := rfl
@[simp] theorem irqDisable_moves (a : Agent) (s : State) : (irqDisable a s).moves = s.moves := rfl
@[simp] theorem irqDisable_txFree (a : Agent) (s : State) : (irqDisable a s).txFree = s.txFree := rfl
@[simp] theorem irqDisable_rxOffer (a : Agent) (s : State) : (irqDisable a s).rxOffer = s.rxOffer := rfl

/-! ### `irqSetPriority` -/

@[simp] theorem irqSetPriority_seq (a : Agent) (s : State) : (irqSetPriority a s).seq = s.seq := rfl
@[simp] theorem irqSetPriority_ie (a : Agent) (s : State) : (irqSetPriority a s).ie = s.ie := rfl
@[simp] theorem irqSetPriority_ovr (a : Agent) (s : State) : (irqSetPriority a s).ovr = s.ovr := rfl
@[simp] theorem irqSetPriority_busCfg (a : Agent) (s : State) : (irqSetPriority a s).busCfg = s.busCfg := rfl
@[simp] theorem irqSetPriority_stallCnt (a : Agent) (s : State) : (irqSetPriority a s).stallCnt = s.stallCnt := rfl
@[simp] theorem irqSetPriority_wr (a : Agent) (s : State) : (irqSetPriority a s).wr = s.wr := rfl
@[simp] theorem irqSetPriority_snd (a : Agent) (s : State) : (irqSetPriority a s).snd = s.snd := rfl
@[simp] theorem irqSetPriority_rcv (a : Agent) (s : State) : (irqSetPriority a s).rcv = s.rcv := rfl
@[simp] theorem irqSetPriority_buf (a : Agent) (s : State) : (irqSetPriority a s).buf = s.buf := rfl
@[simp] theorem irqSetPriority_inflight (a : Agent) (s : State) : (irqSetPriority a s).inflight = s.inflight := rfl
@[simp] theorem irqSetPriority_store (a : Agent) (s : State) : (irqSetPriority a s).store = s.store := rfl
@[simp] theorem irqSetPriority_storeCur (a : Agent) (s : State) : (irqSetPriority a s).storeCur = s.storeCur := rfl
@[simp] theorem irqSetPriority_hrPriority (a : Agent) (s : State) : (irqSetPriority a s).hrPriority = s.params.irqPriority := rfl
@[simp] theorem irqSetPriority_history (a : Agent) (s : State) : (irqSetPriority a s).history = s.history ++ [{ agent := a, prim := .irqSetPriority .hr s.params.irqPriority }] := rfl
@[simp] theorem irqSetPriority_results (a : Agent) (s : State) : (irqSetPriority a s).results = s.results := rfl
@[simp] theorem irqSetPriority_params (a : Agent) (s : State) : (irqSetPriority a s).params = s.params := rfl
@[simp] theorem irqSetPriority_host (a : Agent) (s : State) : (irqSetPriority a s).host = s.host := rfl
@[simp] theorem irqSetPriority_moves (a : Agent) (s : State) : (irqSetPriority a s).moves = s.moves := rfl
@[simp] theorem irqSetPriority_txFree (a : Agent) (s : State) : (irqSetPriority a s).txFree = s.txFree := rfl
@[simp] theorem irqSetPriority_rxOffer (a : Agent) (s : State) : (irqSetPriority a s).rxOffer = s.rxOffer := rfl

/-! ### `takeReady` -/

@[simp] theorem takeReady_seq (k : Nat) (r : List Byte) (s : State) : (takeReady k r s).seq = s.seq := rfl
@[simp] theorem takeReady_ie (k : Nat) (r : List Byte) (s : State) : (takeReady k r s).ie = s.ie := rfl
@[simp] theorem takeReady_ovr (k : Nat) (r : List Byte) (s : State) : (takeReady k r s).ovr = s.ovr := rfl
@[simp] theorem takeReady_busCfg (k : Nat) (r : List Byte) (s : State) : (takeReady k r s).busCfg = s.busCfg := rfl
@[simp] theorem takeReady_stallCnt (k : Nat) (r : List Byte) (s : State) : (takeReady k r s).stallCnt = s.stallCnt := rfl
@[simp] theorem takeReady_wr (k : Nat) (r : List Byte) (s : State) : (takeReady k r s).wr = s.wr := rfl
@[simp] theorem takeReady_snd (k : Nat) (r : List Byte) (s : State) : (takeReady k r s).snd = s.snd := rfl
@[simp] theorem takeReady_rcv (k : Nat) (r : List Byte) (s : State) : (takeReady k r s).rcv = s.rcv := rfl
@[simp] theorem takeReady_buf (k : Nat) (r : List Byte) (s : State) : (takeReady k r s).buf = s.buf := rfl
@[simp] theorem takeReady_inflight (k : Nat) (r : List Byte) (s : State) : (takeReady k r s).inflight = s.inflight := rfl
@[simp] theorem takeReady_store (k : Nat) (r : List Byte) (s : State) : (takeReady k r s).store = s.store := rfl
@[simp] theorem takeReady_storeCur (k : Nat) (r : List Byte) (s : State) : (takeReady k r s).storeCur = s.storeCur := rfl
@[simp] theorem takeReady_hrPriority (k : Nat) (r : List Byte) (s : State) : (takeReady k r s).hrPriority = s.hrPriority := rfl
@[simp] theorem takeReady_history (k : Nat) (r : List Byte) (s : State) : (takeReady k r s).history = s.history := rfl
@[simp] theorem takeReady_results (k : Nat) (r : List Byte) (s : State) : (takeReady k r s).results = s.results := rfl
@[simp] theorem takeReady_params (k : Nat) (r : List Byte) (s : State) : (takeReady k r s).params = s.params := rfl
@[simp] theorem takeReady_host (k : Nat) (r : List Byte) (s : State) : (takeReady k r s).host = s.host := rfl
@[simp] theorem takeReady_moves (k : Nat) (r : List Byte) (s : State) : (takeReady k r s).moves = s.moves := rfl
@[simp] theorem takeReady_txFree (k : Nat) (r : List Byte) (s : State) : (takeReady k r s).txFree = k := rfl
@[simp] theorem takeReady_rxOffer (k : Nat) (r : List Byte) (s : State) : (takeReady k r s).rxOffer = r := rfl

/-! ### `storeReset` -/

@[simp] theorem storeReset_seq (s : State) : (storeReset s).seq = s.seq := rfl
@[simp] theorem storeReset_ie (s : State) : (storeReset s).ie = s.ie := rfl
@[simp] theorem storeReset_ovr (s : State) : (storeReset s).ovr = s.ovr := rfl
@[simp] theorem storeReset_busCfg (s : State) : (storeReset s).busCfg = s.busCfg := rfl
@[simp] theorem storeReset_stallCnt (s : State) : (storeReset s).stallCnt = s.stallCnt := rfl
@[simp] theorem storeReset_wr (s : State) : (storeReset s).wr = s.wr := rfl
@[simp] theorem storeReset_snd (s : State) : (storeReset s).snd = s.snd := rfl
@[simp] theorem storeReset_rcv (s : State) : (storeReset s).rcv = s.rcv := rfl
@[simp] theorem storeReset_buf (s : State) : (storeReset s).buf = s.buf := rfl
@[simp] theorem storeReset_inflight (s : State) : (storeReset s).inflight = s.inflight := rfl
@[simp] theorem storeReset_store (s : State) : (storeReset s).store = s.store := rfl
@[simp] theorem storeReset_storeCur (s : State) : (storeReset s).storeCur = 0 := rfl
@[simp] theorem storeReset_hrPriority (s : State) : (storeReset s).hrPriority = s.hrPriority := rfl
@[simp] theorem storeReset_history (s : State) : (storeReset s).history = s.history ++ [{ agent := .sequencer, prim := .storeReset }] := rfl
@[simp] theorem storeReset_results (s : State) : (storeReset s).results = s.results := rfl
@[simp] theorem storeReset_params (s : State) : (storeReset s).params = s.params := rfl
@[simp] theorem storeReset_host (s : State) : (storeReset s).host = s.host := rfl
@[simp] theorem storeReset_moves (s : State) : (storeReset s).moves = s.moves := rfl
@[simp] theorem storeReset_txFree (s : State) : (storeReset s).txFree = s.txFree := rfl
@[simp] theorem storeReset_rxOffer (s : State) : (storeReset s).rxOffer = s.rxOffer := rfl

/-! ### `hardReset` -/

@[simp] theorem hardReset_seq (l : List Byte) (s : State) : (hardReset l s).seq = .idle := rfl
@[simp] theorem hardReset_ie (l : List Byte) (s : State) : (hardReset l s).ie = false := rfl
@[simp] theorem hardReset_ovr (l : List Byte) (s : State) : (hardReset l s).ovr = false := rfl
@[simp] theorem hardReset_busCfg (l : List Byte) (s : State) : (hardReset l s).busCfg = false := rfl
@[simp] theorem hardReset_stallCnt (l : List Byte) (s : State) : (hardReset l s).stallCnt = 0 := rfl
@[simp] theorem hardReset_wr (l : List Byte) (s : State) : (hardReset l s).wr = 0 := rfl
@[simp] theorem hardReset_snd (l : List Byte) (s : State) : (hardReset l s).snd = 0 := rfl
@[simp] theorem hardReset_rcv (l : List Byte) (s : State) : (hardReset l s).rcv = 0 := rfl
@[simp] theorem hardReset_buf (l : List Byte) (s : State) : (hardReset l s).buf = Memory.ofBytes 0 (l.take Config.capacity) := rfl
@[simp] theorem hardReset_inflight (l : List Byte) (s : State) : (hardReset l s).inflight = s.inflight := rfl
@[simp] theorem hardReset_store (l : List Byte) (s : State) : (hardReset l s).store = s.store := rfl
@[simp] theorem hardReset_storeCur (l : List Byte) (s : State) : (hardReset l s).storeCur = s.storeCur := rfl
@[simp] theorem hardReset_hrPriority (l : List Byte) (s : State) : (hardReset l s).hrPriority = s.hrPriority := rfl
@[simp] theorem hardReset_history (l : List Byte) (s : State) : (hardReset l s).history = [] := rfl
@[simp] theorem hardReset_results (l : List Byte) (s : State) : (hardReset l s).results = [] := rfl
@[simp] theorem hardReset_params (l : List Byte) (s : State) : (hardReset l s).params = s.params := rfl
@[simp] theorem hardReset_host (l : List Byte) (s : State) : (hardReset l s).host = s.host := rfl
@[simp] theorem hardReset_moves (l : List Byte) (s : State) : (hardReset l s).moves = s.moves := rfl
@[simp] theorem hardReset_txFree (l : List Byte) (s : State) : (hardReset l s).txFree = s.txFree := rfl
@[simp] theorem hardReset_rxOffer (l : List Byte) (s : State) : (hardReset l s).rxOffer = s.rxOffer := rfl

/-! ### `returnResult` -/

@[simp] theorem returnResult_seq (r : ResultCode) (s : State) : (returnResult r s).seq = s.seq := rfl
@[simp] theorem returnResult_ie (r : ResultCode) (s : State) : (returnResult r s).ie = s.ie := rfl
@[simp] theorem returnResult_ovr (r : ResultCode) (s : State) : (returnResult r s).ovr = s.ovr := rfl
@[simp] theorem returnResult_busCfg (r : ResultCode) (s : State) : (returnResult r s).busCfg = s.busCfg := rfl
@[simp] theorem returnResult_stallCnt (r : ResultCode) (s : State) : (returnResult r s).stallCnt = s.stallCnt := rfl
@[simp] theorem returnResult_wr (r : ResultCode) (s : State) : (returnResult r s).wr = s.wr := rfl
@[simp] theorem returnResult_snd (r : ResultCode) (s : State) : (returnResult r s).snd = s.snd := rfl
@[simp] theorem returnResult_rcv (r : ResultCode) (s : State) : (returnResult r s).rcv = s.rcv := rfl
@[simp] theorem returnResult_buf (r : ResultCode) (s : State) : (returnResult r s).buf = s.buf := rfl
@[simp] theorem returnResult_inflight (r : ResultCode) (s : State) : (returnResult r s).inflight = s.inflight := rfl
@[simp] theorem returnResult_store (r : ResultCode) (s : State) : (returnResult r s).store = s.store := rfl
@[simp] theorem returnResult_storeCur (r : ResultCode) (s : State) : (returnResult r s).storeCur = s.storeCur := rfl
@[simp] theorem returnResult_hrPriority (r : ResultCode) (s : State) : (returnResult r s).hrPriority = s.hrPriority := rfl
@[simp] theorem returnResult_history (r : ResultCode) (s : State) : (returnResult r s).history = s.history := rfl
@[simp] theorem returnResult_results (r : ResultCode) (s : State) : (returnResult r s).results = s.results ++ [res8 r false] := rfl
@[simp] theorem returnResult_params (r : ResultCode) (s : State) : (returnResult r s).params = s.params := rfl
@[simp] theorem returnResult_host (r : ResultCode) (s : State) : (returnResult r s).host = s.host := rfl
@[simp] theorem returnResult_moves (r : ResultCode) (s : State) : (returnResult r s).moves = s.moves := rfl
@[simp] theorem returnResult_txFree (r : ResultCode) (s : State) : (returnResult r s).txFree = s.txFree := rfl
@[simp] theorem returnResult_rxOffer (r : ResultCode) (s : State) : (returnResult r s).rxOffer = s.rxOffer := rfl

/-! ### `returnIdle` -/

@[simp] theorem returnIdle_seq (b : Bool) (s : State) : (returnIdle b s).seq = s.seq := rfl
@[simp] theorem returnIdle_ie (b : Bool) (s : State) : (returnIdle b s).ie = s.ie := rfl
@[simp] theorem returnIdle_ovr (b : Bool) (s : State) : (returnIdle b s).ovr = s.ovr := rfl
@[simp] theorem returnIdle_busCfg (b : Bool) (s : State) : (returnIdle b s).busCfg = s.busCfg := rfl
@[simp] theorem returnIdle_stallCnt (b : Bool) (s : State) : (returnIdle b s).stallCnt = s.stallCnt := rfl
@[simp] theorem returnIdle_wr (b : Bool) (s : State) : (returnIdle b s).wr = s.wr := rfl
@[simp] theorem returnIdle_snd (b : Bool) (s : State) : (returnIdle b s).snd = s.snd := rfl
@[simp] theorem returnIdle_rcv (b : Bool) (s : State) : (returnIdle b s).rcv = s.rcv := rfl
@[simp] theorem returnIdle_buf (b : Bool) (s : State) : (returnIdle b s).buf = s.buf := rfl
@[simp] theorem returnIdle_inflight (b : Bool) (s : State) : (returnIdle b s).inflight = s.inflight := rfl
@[simp] theorem returnIdle_store (b : Bool) (s : State) : (returnIdle b s).store = s.store := rfl
@[simp] theorem returnIdle_storeCur (b : Bool) (s : State) : (returnIdle b s).storeCur = s.storeCur := rfl
@[simp] theorem returnIdle_hrPriority (b : Bool) (s : State) : (returnIdle b s).hrPriority = s.hrPriority := rfl
@[simp] theorem returnIdle_history (b : Bool) (s : State) : (returnIdle b s).history = s.history := rfl
@[simp] theorem returnIdle_results (b : Bool) (s : State) : (returnIdle b s).results = s.results ++ [res8 .ok b] := rfl
@[simp] theorem returnIdle_params (b : Bool) (s : State) : (returnIdle b s).params = s.params := rfl
@[simp] theorem returnIdle_host (b : Bool) (s : State) : (returnIdle b s).host = s.host := rfl
@[simp] theorem returnIdle_moves (b : Bool) (s : State) : (returnIdle b s).moves = s.moves := rfl
@[simp] theorem returnIdle_txFree (b : Bool) (s : State) : (returnIdle b s).txFree = s.txFree := rfl
@[simp] theorem returnIdle_rxOffer (b : Bool) (s : State) : (returnIdle b s).rxOffer = s.rxOffer := rfl

/-! ### `toIdle` -/

@[simp] theorem toIdle_seq (s : State) : (toIdle s).seq = .idle := rfl
@[simp] theorem toIdle_ie (s : State) : (toIdle s).ie = s.ie := rfl
@[simp] theorem toIdle_ovr (s : State) : (toIdle s).ovr = s.ovr := rfl
@[simp] theorem toIdle_busCfg (s : State) : (toIdle s).busCfg = s.busCfg := rfl
@[simp] theorem toIdle_stallCnt (s : State) : (toIdle s).stallCnt = 0 := rfl
@[simp] theorem toIdle_wr (s : State) : (toIdle s).wr = s.wr := rfl
@[simp] theorem toIdle_snd (s : State) : (toIdle s).snd = s.snd := rfl
@[simp] theorem toIdle_rcv (s : State) : (toIdle s).rcv = s.rcv := rfl
@[simp] theorem toIdle_buf (s : State) : (toIdle s).buf = s.buf := rfl
@[simp] theorem toIdle_inflight (s : State) : (toIdle s).inflight = s.inflight := rfl
@[simp] theorem toIdle_store (s : State) : (toIdle s).store = s.store := rfl
@[simp] theorem toIdle_storeCur (s : State) : (toIdle s).storeCur = s.storeCur := rfl
@[simp] theorem toIdle_hrPriority (s : State) : (toIdle s).hrPriority = s.hrPriority := rfl
@[simp] theorem toIdle_history (s : State) : (toIdle s).history = s.history := rfl
@[simp] theorem toIdle_results (s : State) : (toIdle s).results = s.results := rfl
@[simp] theorem toIdle_params (s : State) : (toIdle s).params = s.params := rfl
@[simp] theorem toIdle_host (s : State) : (toIdle s).host = s.host := rfl
@[simp] theorem toIdle_moves (s : State) : (toIdle s).moves = s.moves := rfl
@[simp] theorem toIdle_txFree (s : State) : (toIdle s).txFree = s.txFree := rfl
@[simp] theorem toIdle_rxOffer (s : State) : (toIdle s).rxOffer = s.rxOffer := rfl

/-! ### `toWaiting` -/

@[simp] theorem toWaiting_seq (q : SeqState) (s : State) : (toWaiting q s).seq = q := rfl
@[simp] theorem toWaiting_ie (q : SeqState) (s : State) : (toWaiting q s).ie = s.ie := rfl
@[simp] theorem toWaiting_ovr (q : SeqState) (s : State) : (toWaiting q s).ovr = s.ovr := rfl
@[simp] theorem toWaiting_busCfg (q : SeqState) (s : State) : (toWaiting q s).busCfg = s.busCfg := rfl
@[simp] theorem toWaiting_stallCnt (q : SeqState) (s : State) : (toWaiting q s).stallCnt = 0 := rfl
@[simp] theorem toWaiting_wr (q : SeqState) (s : State) : (toWaiting q s).wr = s.wr := rfl
@[simp] theorem toWaiting_snd (q : SeqState) (s : State) : (toWaiting q s).snd = s.snd := rfl
@[simp] theorem toWaiting_rcv (q : SeqState) (s : State) : (toWaiting q s).rcv = s.rcv := rfl
@[simp] theorem toWaiting_buf (q : SeqState) (s : State) : (toWaiting q s).buf = s.buf := rfl
@[simp] theorem toWaiting_inflight (q : SeqState) (s : State) : (toWaiting q s).inflight = s.inflight := rfl
@[simp] theorem toWaiting_store (q : SeqState) (s : State) : (toWaiting q s).store = s.store := rfl
@[simp] theorem toWaiting_storeCur (q : SeqState) (s : State) : (toWaiting q s).storeCur = s.storeCur := rfl
@[simp] theorem toWaiting_hrPriority (q : SeqState) (s : State) : (toWaiting q s).hrPriority = s.hrPriority := rfl
@[simp] theorem toWaiting_history (q : SeqState) (s : State) : (toWaiting q s).history = s.history := rfl
@[simp] theorem toWaiting_results (q : SeqState) (s : State) : (toWaiting q s).results = s.results := rfl
@[simp] theorem toWaiting_params (q : SeqState) (s : State) : (toWaiting q s).params = s.params := rfl
@[simp] theorem toWaiting_host (q : SeqState) (s : State) : (toWaiting q s).host = s.host := rfl
@[simp] theorem toWaiting_moves (q : SeqState) (s : State) : (toWaiting q s).moves = s.moves := rfl
@[simp] theorem toWaiting_txFree (q : SeqState) (s : State) : (toWaiting q s).txFree = s.txFree := rfl
@[simp] theorem toWaiting_rxOffer (q : SeqState) (s : State) : (toWaiting q s).rxOffer = s.rxOffer := rfl

end Sys2Proof.Machine
end

