-- ==== Sys2Proof/Laws/Ops.lean ====
section
/-! SUPPORT. One lemma per shared operation: everything it can do. -/

namespace Sys2Proof.Machine

theorem memRead_ok {i : Nat} {s : State} (h : i < Config.capacity) : memRead i s = .ok (Memory.read s.buf i) :=
  if_pos h

theorem memWrite_ok {i : Nat} {s : State} (h : i < Config.capacity) (b : Byte) :
    memWrite i b s = .ok { s with buf := Memory.write s.buf i b } :=
  if_pos h

/-- A block of buffer writes inside the buffer changes the buffer there and nothing else. -/
theorem memWriteAll_ok (i : Nat) (bs : List Byte) (s : State) (h : i + bs.length ≤ Config.capacity) :
    memWriteAll i bs s = .ok { s with buf := Memory.writeRange s.buf i bs } := by
  induction bs generalizing i s with
  | nil => rfl
  | cons b bs ih =>
    simp only [List.length_cons] at h
    simp only [memWriteAll, memWrite_ok (show i < Config.capacity by omega)]
    exact ih (i + 1) _ (by show i + 1 + bs.length ≤ Config.capacity; omega)

/-- The events of appending the given bytes to the ExternalStore. -/
def appendEvents (bs : List Byte) : List Event := bs.map fun b => { agent := .sequencer, prim := .storeAppend b }

/-- The copy into a store with room: the bytes in order, each with its event. -/
theorem storeCopy_ok (n i : Nat) (s : State) (hb : i + n ≤ Config.capacity)
    (hs : s.storeCur + n ≤ s.params.storeCapacity) :
    storeCopy n i s = .ok { s with
      store := Memory.writeRange s.store s.storeCur (Memory.readRange s.buf i n)
      storeCur := s.storeCur + n
      history := s.history ++ appendEvents (Memory.readRange s.buf i n) } := by
  induction n generalizing i s with
  | zero => simp [storeCopy, Memory.readRange, Memory.writeRange, appendEvents]
  | succ n ih =>
    have h1 : i < Config.capacity := by omega
    have h2 : s.storeCur < s.params.storeCapacity := by omega
    simp only [storeCopy, memRead_ok h1, storeAppend, if_pos h2]
    rw [ih (i + 1) _ (by omega) (by simp; omega)]
    simp [Memory.readRange, Memory.writeRange, appendEvents, emit]
    omega

/-- The copy into a store without room: `StoreOverflow` at the first append that finds it full. -/
theorem storeCopy_overflow (n i : Nat) (s : State) (hb : i + n ≤ Config.capacity)
    (hc : s.storeCur ≤ s.params.storeCapacity) (hs : s.params.storeCapacity < s.storeCur + n) :
    storeCopy n i s = .error (.storeOverflow s.params.storeCapacity) := by
  induction n generalizing i s with
  | zero => omega
  | succ n ih =>
    have h1 : i < Config.capacity := by omega
    simp only [storeCopy, memRead_ok h1, storeAppend]
    by_cases h2 : s.storeCur < s.params.storeCapacity
    · simp only [if_pos h2]
      have := ih (i + 1) (emit .sequencer (.storeAppend (Memory.read s.buf i))
        { s with store := Memory.write s.store s.storeCur (Memory.read s.buf i), storeCur := s.storeCur + 1 })
        (by omega) (by simp; omega) (by simp; omega)
      simpa using this
    · have h3 : s.storeCur = s.params.storeCapacity := by omega
      simp [h3]

theorem outcomeOf_next {r : Except Fault State} {t : State} (h : outcomeOf r = .next t) : r = .ok t := by
  cases r with
  | error f => cases h
  | ok u => cases h; rfl

theorem outcomeOf_fault {r : Except Fault State} {f : Fault} (h : outcomeOf r = .fault f) : r = .error f := by
  cases r with
  | error g => cases h; rfl
  | ok u => cases h

/-- What a copy that answers can have changed, in any state. -/
theorem storeCopy_frame {n i : Nat} {s t : State} (h : storeCopy n i s = .ok t) :
    ∃ store cur es, t = { s with store := store, storeCur := cur, history := s.history ++ es } ∧
      (∀ e ∈ es, ∃ b, e = { agent := .sequencer, prim := .storeAppend b }) ∧
      (Memory.wf s.store → Memory.wf store) := by
  induction n generalizing i s with
  | zero => cases h; exact ⟨t.store, t.storeCur, [], by simp, by simp, id⟩
  | succ n ih =>
    simp only [storeCopy] at h
    split at h
    · cases h
    · next b _ =>
      unfold storeAppend at h
      split at h
      · cases h
      · next u hu =>
        split at hu
        · cases hu
          obtain ⟨st, cur, es, rfl, he, hw⟩ := ih h
          refine ⟨st, cur, { agent := .sequencer, prim := .storeAppend b } :: es, by simp, ?_, ?_⟩
          · intro e hm
            rcases List.mem_cons.mp hm with rfl | hm
            · exact ⟨b, rfl⟩
            · exact he e hm
          · intro hwf; exact hw (Memory.write_wf hwf _ _)
        · cases hu

/-- What a block of buffer writes that answers can have changed, in any state: the buffer. -/
theorem memWriteAll_frame {i : Nat} {bs : List Byte} {s t : State} (h : memWriteAll i bs s = .ok t) :
    t = { s with buf := Memory.writeRange s.buf i bs } := by
  induction bs generalizing i s with
  | nil => cases h; rfl
  | cons b bs ih =>
    simp only [memWriteAll] at h
    split at h
    · next u hu =>
      unfold memWrite at hu
      split at hu
      · cases hu; exact ih h
      · cases hu
    · cases h

end Sys2Proof.Machine
end

