-- ==== Sys2Proof/Laws/BytePump.lean ====
section
/-! SUPPORT. One lemma per loop of the Byte Pump: everything it can do. -/

namespace Sys2Proof.Machine

/-- The events of transmitting the given bytes. -/
def txEvents (bs : List Byte) : List Event := bs.map fun b => { agent := .pump, prim := .busTx b }

/-- The events of receiving `n` bytes. -/
def rxEvents (n : Nat) : List Event := List.replicate n { agent := .pump, prim := .busRx }

theorem toNat_succ_cursor {c : Cursor} (h : c.toNat < Config.capacity) : (c + 1).toNat = c.toNat + 1 := by
  unfold Config.capacity at h
  have : (1#16).toNat = 1 := rfl
  rw [BitVec.toNat_add]
  simp
  omega

/-- The transmit loop while the cursors keep R48: `k = min(txFree, WR - SND, n)` bytes go out, in index order. -/
theorem txLoop_ok (n : Nat) (s : State) (h1 : s.snd.toNat ≤ s.wr.toNat) (h2 : s.wr.toNat ≤ Config.capacity) (k : Nat)
    (hk : k = min s.txFree (min (s.wr.toNat - s.snd.toNat) n)) :
    txLoop n s = .ok { s with
      snd := BitVec.ofNat 16 (s.snd.toNat + k)
      inflight := s.inflight + k
      txFree := s.txFree - k
      history := s.history ++ txEvents (Memory.readRange s.buf s.snd.toNat k) } := by
  induction n generalizing s k with
  | zero => simp [hk, txLoop, txEvents, Memory.readRange]
  | succ n ih =>
    by_cases hstop : s.txFree = 0 ∨ s.snd = s.wr
    · have hk0 : k = 0 := by
        rcases hstop with h | h
        · omega
        · rw [h] at hk; omega
      subst hk0
      simp [txLoop, hstop, txEvents, Memory.readRange]
    · have hne : s.snd.toNat ≠ s.wr.toNat := fun h => hstop (.inr (BitVec.eq_of_toNat_eq h))
      have hfree : s.txFree ≠ 0 := fun h => hstop (.inl h)
      have hlt : s.snd.toNat < Config.capacity := by omega
      have hsucc := toNat_succ_cursor hlt
      simp only [txLoop, if_neg hstop, memRead_ok hlt]
      obtain ⟨j, rfl⟩ : ∃ j, k = j + 1 := ⟨k - 1, by omega⟩
      rw [ih _ (by simp only [busTx_wr]; omega) (by simp only [busTx_wr]; omega) j
        (by simp only [busTx_wr, busTx_txFree]; omega)]
      simp only [busTx_wr, busTx_txFree, busTx_inflight, busTx_history, busTx_buf, hsucc, Memory.readRange]
      simp only [busTx, emit, txEvents, List.map_cons, List.append_assoc, List.cons_append, List.nil_append]
      congr 2 <;> first | omega | (congr 1; omega)

/-- The receive loop while the cursors keep R48: `k = min(offered, WR - RCV, n)` bytes land in arrival order, and the
bounds check fires exactly when one more is offered with passes left. -/
theorem rxLoop_ok (n : Nat) (s : State) (h1 : s.rcv.toNat ≤ s.wr.toNat) (h2 : s.wr.toNat ≤ Config.capacity) (k : Nat)
    (hk : k = min s.rxOffer.length (min (s.wr.toNat - s.rcv.toNat) n)) :
    rxLoop n s = .ok ({ s with
      rcv := BitVec.ofNat 16 (s.rcv.toNat + k)
      buf := Memory.writeRange s.buf s.rcv.toNat (s.rxOffer.take k)
      inflight := s.inflight - k
      rxOffer := s.rxOffer.drop k
      history := s.history ++ rxEvents k }, decide (k < s.rxOffer.length ∧ k < n)) := by
  induction n generalizing s k with
  | zero => simp [hk, rxLoop, rxEvents, Memory.writeRange]
  | succ n ih =>
    unfold rxLoop
    match ho : s.rxOffer with
    | [] =>
      have hk0 : k = 0 := by rw [ho] at hk; simpa using hk
      subst hk0
      simp [rxEvents, Memory.writeRange]
      simp [← ho]
    | b :: rest =>
      rw [ho] at hk
      simp only [List.length_cons] at hk
      by_cases hfull : s.rcv = s.wr
      · have hk0 : k = 0 := by rw [hfull] at hk; omega
        subst hk0
        simp only [if_pos hfull]
        simp [rxEvents, Memory.writeRange]
        simp [← ho]
      · have hne : s.rcv.toNat ≠ s.wr.toNat := fun h => hfull (BitVec.eq_of_toNat_eq h)
        have hlt : s.rcv.toNat < Config.capacity := by omega
        have hsucc := toNat_succ_cursor hlt
        simp only [if_neg hfull, memWrite_ok hlt]
        obtain ⟨j, rfl⟩ : ∃ j, k = j + 1 := ⟨k - 1, by omega⟩
        rw [ih _ (by simp only [busRx_wr]; omega) (by simp only [busRx_wr]; omega) j
          (by simp only [busRx_wr, busRx_rxOffer]; omega)]
        simp only [busRx_wr, busRx_rxOffer, busRx_inflight, busRx_history, busRx_buf, hsucc, List.take_succ_cons,
          List.drop_succ_cons, Memory.writeRange, List.length_cons]
        simp only [busRx, emit, rxEvents, List.replicate_succ, List.append_assoc, List.cons_append, List.nil_append]
        congr 2
        · congr 1 <;> first | omega | (congr 1; omega)
        · show decide (j < rest.length ∧ j < n) = decide (j + 1 < rest.length + 1 ∧ j + 1 < n + 1)
          simp

/-- What a transmit loop that answers can have changed, in any state. -/
theorem txLoop_frame {n : Nat} {s t : State} (h : txLoop n s = .ok t) :
    ∃ snd inflight txFree bs, t = { s with
      snd := snd
      inflight := inflight
      txFree := txFree
      history := s.history ++ txEvents bs } := by
  induction n generalizing s with
  | zero => cases h; exact ⟨t.snd, t.inflight, t.txFree, [], by simp [txEvents]⟩
  | succ n ih =>
    simp only [txLoop] at h
    split at h
    · cases h; exact ⟨t.snd, t.inflight, t.txFree, [], by simp [txEvents]⟩
    · split at h
      · cases h
      · next b _ =>
        obtain ⟨snd, inf, free, bs, rfl⟩ := ih h
        exact ⟨snd, inf, free, b :: bs, by simp [txEvents, busTx, emit]⟩

/-- What a receive loop that answers can have changed, in any state. -/
theorem rxLoop_frame {n : Nat} {s t : State} {o : Bool} (h : rxLoop n s = .ok (t, o)) :
    ∃ rcv buf inflight rest k, t = { s with
      rcv := rcv
      buf := buf
      inflight := inflight
      rxOffer := rest
      history := s.history ++ rxEvents k } ∧ (Memory.wf s.buf → Memory.wf buf) ∧
      (Memory.within s.buf Config.capacity → Memory.within buf Config.capacity) := by
  induction n generalizing s with
  | zero => cases h; exact ⟨t.rcv, t.buf, t.inflight, t.rxOffer, 0, by simp [rxEvents], id, id⟩
  | succ n ih =>
    unfold rxLoop at h
    split at h
    · cases h; exact ⟨t.rcv, t.buf, t.inflight, t.rxOffer, 0, by simp [rxEvents], id, id⟩
    · split at h
      · cases h; exact ⟨t.rcv, t.buf, t.inflight, t.rxOffer, 0, by simp [rxEvents], id, id⟩
      · split at h
        · cases h
        · next b rest _ _ u hu =>
          unfold memWrite at hu
          split at hu
          · next hlt =>
            cases hu
            obtain ⟨rcv, buf, inf, r, k, rfl, hwf, hin⟩ := ih h
            exact ⟨rcv, buf, inf, r, k + 1, by simp [rxEvents, busRx, emit, List.replicate_succ],
              fun hw => hwf (Memory.write_wf hw _ _), fun hw => hin (Memory.write_within hw hlt _)⟩
          · cases hu

/-! ### One invocation -/

/-- A cursor that holds a number of buffer bytes reads back as that number. -/
theorem cursor_toNat_ofNat {n : Nat} (h : n ≤ Config.capacity) : (BitVec.ofNat 16 n).toNat = n := by
  unfold Config.capacity at h
  simp
  omega

/-- The closed form of an invocation from cursors that keep R48. -/
theorem pumpBody_ok (s : State) (h : CursorsOk s) :
    pumpBody s = .ok (pumpFinish (overrunNow s) { s with
      snd := BitVec.ofNat 16 (s.snd.toNat + sentCount s)
      rcv := BitVec.ofNat 16 (s.rcv.toNat + rcvdCount s)
      buf := Memory.writeRange s.buf s.rcv.toNat (s.rxOffer.take (rcvdCount s))
      inflight := s.inflight + sentCount s - rcvdCount s
      txFree := s.txFree - sentCount s
      rxOffer := s.rxOffer.drop (rcvdCount s)
      history := s.history ++ txEvents (Memory.readRange s.buf s.snd.toNat (sentCount s)) ++
        rxEvents (rcvdCount s) }) := by
  obtain ⟨h1, h2, h3⟩ := h
  unfold pumpBody
  rw [txLoop_ok _ s h1 h2 (sentCount s) rfl]
  simp only
  rw [rxLoop_ok _ { s with
    snd := BitVec.ofNat 16 (s.snd.toNat + sentCount s)
    inflight := s.inflight + sentCount s
    txFree := s.txFree - sentCount s
    history := s.history ++ txEvents (Memory.readRange s.buf s.snd.toNat (sentCount s)) } h3 h2 (rcvdCount s) rfl]
  rfl

/-- The buffer after the receive loop: the received bytes where they landed, the old bytes elsewhere. -/
theorem read_received (s : State) (hw : Memory.wf s.buf) (a : Nat) :
    Memory.read (Memory.writeRange s.buf s.rcv.toNat (s.rxOffer.take (rcvdCount s))) a =
      if s.rcv.toNat ≤ a ∧ a < s.rcv.toNat + rcvdCount s then s.rxOffer.getD (a - s.rcv.toNat) 0
      else Memory.read s.buf a := by
  have hle : rcvdCount s ≤ s.rxOffer.length := by unfold rcvdCount; omega
  rw [Memory.read_writeRange hw]
  by_cases hc : s.rcv.toNat ≤ a ∧ a < s.rcv.toNat + rcvdCount s
  · rw [if_pos hc, dif_pos (by simp; omega), List.getElem_take, List.getD_eq_getElem?_getD,
      List.getElem?_eq_getElem (by omega)]
    rfl
  · rw [if_neg hc, dif_neg (by simp; omega)]

/-- The three ways the check after both loops can go. -/
theorem pumpFinish_cases (overrun : Bool) (s : State) :
    (pumpFinish overrun s = irqDisable .pump { s with ovr := true } ∧ overrun = true) ∨
      (pumpFinish overrun s = irqDisable .pump s ∧ overrun = false ∧ s.rcv = s.wr) ∨
      (pumpFinish overrun s = s ∧ overrun = false ∧ s.rcv ≠ s.wr) := by
  unfold pumpFinish isComplete
  cases overrun <;> by_cases h : s.rcv = s.wr <;> simp [h]

/-- What an invocation that answers can have changed, in any state. -/
theorem pumpBody_frame {s t : State} (h : pumpBody s = .ok t) :
    ∃ snd rcv buf inflight txFree rest bs k overrun, t = pumpFinish overrun { s with
      snd := snd
      rcv := rcv
      buf := buf
      inflight := inflight
      txFree := txFree
      rxOffer := rest
      history := s.history ++ txEvents bs ++ rxEvents k } ∧ (Memory.wf s.buf → Memory.wf buf) ∧
      (Memory.within s.buf Config.capacity → Memory.within buf Config.capacity) := by
  unfold pumpBody at h
  split at h
  · cases h
  · next u hu =>
    split at h
    · cases h
    · next v o hv =>
      cases h
      obtain ⟨snd, _, free, bs, rfl⟩ := txLoop_frame hu
      obtain ⟨rcv, buf, inf, rest, k, rfl, hw, hin⟩ := rxLoop_frame hv
      exact ⟨snd, rcv, buf, inf, free, rest, bs, k, o, rfl, hw, hin⟩

end Sys2Proof.Machine
end

