-- ==== Sys2Proof/Laws/Decode.lean ====
section
/-! SUPPORT. Laws of the byte-stream helpers and of the descriptor's fields. -/

namespace Sys2Proof

theorem takeBytes_append (bs rest : List Byte) : takeBytes bs.length (bs ++ rest) = some (bs, rest) := by
  induction bs with
  | nil => rfl
  | cons b bs ih => simp [takeBytes, ih]

theorem takeBytes_some {n : Nat} {bs taken rest : List Byte} (h : takeBytes n bs = some (taken, rest)) :
    bs = taken ++ rest ∧ taken.length = n := by
  induction n generalizing bs taken rest with
  | zero => cases h; exact ⟨rfl, rfl⟩
  | succ n ih =>
    cases bs with
    | nil => cases h
    | cons b bs =>
      simp only [takeBytes] at h
      split at h
      · next t r hr =>
        cases h
        obtain ⟨rfl, rfl⟩ := ih hr
        exact ⟨rfl, rfl⟩
      · cases h

theorem takeBytes_none {n : Nat} {bs : List Byte} : takeBytes n bs = none ↔ bs.length < n := by
  induction n generalizing bs with
  | zero => simp [takeBytes]
  | succ n ih =>
    cases bs with
    | nil => simp [takeBytes]
    | cons b bs =>
      simp only [takeBytes, List.length_cons, Nat.add_lt_add_iff_right, ← ih]
      cases takeBytes n bs with
      | none => simp
      | some p => simp

@[simp] theorem leBytes_length (n w : Nat) : (leBytes n w).length = n := by
  induction n generalizing w with
  | zero => rfl
  | succ n ih => simp [leBytes, ih]

theorem leNat_leBytes (n w : Nat) (h : w < 256 ^ n) : leNat (leBytes n w) = w := by
  induction n generalizing w with
  | zero => simp at h; simp [leBytes, leNat, h]
  | succ n ih =>
    have hd : w / 256 < 256 ^ n := by
      rw [Nat.div_lt_iff_lt_mul (by norm_num)]
      rw [pow_succ] at h
      exact h
    simp only [leBytes, leNat, ih _ hd, BitVec.toNat_ofNat]
    have := Nat.mod_add_div w 256
    omega

theorem leNat_lt (bs : List Byte) : leNat bs < 256 ^ bs.length := by
  induction bs with
  | nil => simp [leNat]
  | cons b bs ih =>
    have hb := b.isLt
    simp only [leNat, List.length_cons, pow_succ]
    omega

theorem leBytes_leNat (bs : List Byte) : leBytes bs.length (leNat bs) = bs := by
  induction bs with
  | nil => rfl
  | cons b bs ih =>
    have hb := b.isLt
    have h1 : (b.toNat + 256 * leNat bs) / 256 = leNat bs := by omega
    simp only [List.length_cons, leBytes, leNat, h1, ih]
    congr 1
    apply BitVec.eq_of_toNat_eq
    rw [BitVec.toNat_ofNat]
    omega

@[simp] theorem descriptorBytes_length (d : Descriptor) : (descriptorBytes d).length = 8 := leBytes_length 8 _

theorem leNat_descriptorBytes (d : Descriptor) : BitVec.ofNat 64 (leNat (descriptorBytes d)) = d := by
  have h : d.toNat < 256 ^ 8 := by
    have := d.isLt
    omega
  rw [descriptorBytes, leNat_leBytes 8 _ h]
  simp

/-- A descriptor's eight bytes in front of a stream are decoded as that descriptor. -/
theorem decodeCommand_descriptorBytes (d : Descriptor) (rest : List Byte) :
    decodeCommand (descriptorBytes d ++ rest) = decodeDescriptor d rest := by
  have h := takeBytes_append (descriptorBytes d) rest
  rw [descriptorBytes_length] at h
  simp only [decodeCommand, h, leNat_descriptorBytes]

/-! ### Fields of a descriptor -/

@[simp] theorem cmdField_mk (c : BitVec 4) (a : FlashAddr) (n : Cursor) : cmdField (mkDescriptor c a n) = c := by
  apply BitVec.eq_of_getLsbD_eq
  intro i hi
  simp only [cmdField, mkDescriptor, BitVec.getLsbD_extractLsb', BitVec.getLsbD_append]
  have h1 : i < 48 := by omega
  have h2 : i < 32 := by omega
  have h3 : i < 8 := by omega
  simp [hi, h1, h2, h3]

@[simp] theorem rsv0Field_mk (c : BitVec 4) (a : FlashAddr) (n : Cursor) : rsv0Field (mkDescriptor c a n) = 0 := by
  apply BitVec.eq_of_getLsbD_eq
  intro i hi
  simp only [rsv0Field, mkDescriptor, BitVec.getLsbD_extractLsb', BitVec.getLsbD_append]
  have h1 : 4 + i < 32 := by omega
  have h2 : ¬ (8 ≤ 4 + i) := by omega
  simp [hi, h1, h2]

@[simp] theorem addrField_mk (c : BitVec 4) (a : FlashAddr) (n : Cursor) : addrField (mkDescriptor c a n) = a := by
  apply BitVec.eq_of_getLsbD_eq
  intro i hi
  simp only [addrField, mkDescriptor, BitVec.getLsbD_extractLsb', BitVec.getLsbD_append]
  have h1 : 8 + i < 48 := by omega
  have h2 : 8 + i < 32 := by omega
  simp [hi, h1, h2]

@[simp] theorem lenField_mk (c : BitVec 4) (a : FlashAddr) (n : Cursor) : lenField (mkDescriptor c a n) = n := by
  apply BitVec.eq_of_getLsbD_eq
  intro i hi
  simp only [lenField, mkDescriptor, BitVec.getLsbD_extractLsb', BitVec.getLsbD_append]
  have h1 : 32 + i < 48 := by omega
  simp [hi, h1]

@[simp] theorem rsv1Field_mk (c : BitVec 4) (a : FlashAddr) (n : Cursor) : rsv1Field (mkDescriptor c a n) = 0 := by
  apply BitVec.eq_of_getLsbD_eq
  intro i hi
  simp only [rsv1Field, mkDescriptor, BitVec.getLsbD_extractLsb', BitVec.getLsbD_append]
  simp [hi]

/-- A descriptor with both reserved fields 0 is made of its three other fields (R107). -/
theorem mkDescriptor_fields {d : Descriptor} (h0 : rsv0Field d = 0) (h1 : rsv1Field d = 0) :
    mkDescriptor (cmdField d) (addrField d) (lenField d) = d := by
  apply BitVec.eq_of_getLsbD_eq
  intro i hi
  have e0 : ∀ j, (rsv0Field d).getLsbD j = false := by simp [h0]
  have e1 : ∀ j, (rsv1Field d).getLsbD j = false := by simp [h1]
  simp only [rsv0Field, rsv1Field, BitVec.getLsbD_extractLsb'] at e0 e1
  simp only [cmdField, addrField, lenField, mkDescriptor, BitVec.getLsbD_append, BitVec.getLsbD_extractLsb']
  by_cases c1 : i < 4
  · have : i < 8 := by omega
    have : i < 32 := by omega
    have : i < 48 := by omega
    simp [*]
  · by_cases c2 : i < 8
    · have k : 4 + (i - 4) = i := by omega
      have := e0 (i - 4)
      rw [k] at this
      have : i - 4 < 4 := by omega
      have : i < 32 := by omega
      have : i < 48 := by omega
      simp_all
    · by_cases c3 : i < 32
      · have k : 8 + (i - 8) = i := by omega
        have : i - 8 < 24 := by omega
        have : i < 48 := by omega
        have : i - 4 < 28 := by omega
        have : ¬ (i - 4 < 4) := by omega
        simp_all
      · by_cases c4 : i < 48
        · have k : 32 + (i - 32) = i := by omega
          have : i - 32 < 16 := by omega
          have : ¬ (i - 4 < 4) := by omega
          simp_all
        · have k : 48 + (i - 48) = i := by omega
          have := e1 (i - 48)
          rw [k] at this
          have : i - 48 < 16 := by omega
          have : ¬ (i - 4 < 4) := by omega
          have : ¬ (i - 4 - 4 < 24) := by omega
          have : ¬ (i - 4 - 4 - 24 < 16) := by omega
          simp_all

end Sys2Proof
end

