-- ==== Sys2Proof/Laws/Sequencer.lean ====
section
/-! SUPPORT. What the shared operations of the Sequencer can do. -/

namespace Sys2Proof.Machine

@[simp] theorem addrBytes_length (a : FlashAddr) : (addrBytes a).length = 3 := rfl

@[simp] theorem readHeader_length (a : FlashAddr) : (readHeader a).length = 12 := rfl

@[simp] theorem writeFrame_length (a : FlashAddr) (p : List Byte) : (writeFrame a p).length = 4 + p.length := by
  simp [writeFrame]
  omega

/-- An arm procedure whose bytes fit in the buffer answers. -/
theorem armFrame_ok (bytes : List Byte) (wr : Nat) (seq : SeqState) (s : State)
    (h : bytes.length ≤ Config.capacity) :
    armFrame bytes wr seq s = .ok { s with
      snd := 0
      rcv := 0
      buf := Memory.writeRange s.buf 0 bytes
      wr := BitVec.ofNat 16 wr
      seq := seq } := by
  simp only [armFrame, memWriteAll_ok 0 bytes _ (by omega)]

/-- What an arm procedure that answers has done, in any state. -/
theorem armFrame_next {bytes : List Byte} {wr : Nat} {seq : SeqState} {s t : State}
    (h : armFrame bytes wr seq s = .ok t) :
    t = { s with
      snd := 0
      rcv := 0
      buf := Memory.writeRange s.buf 0 bytes
      wr := BitVec.ofNat 16 wr
      seq := seq } := by
  unfold armFrame at h
  split at h
  · cases h
  · next u hu =>
    cases h
    rw [memWriteAll_frame hu]

/-- The checks of a begin command let it through exactly in a configured, idle block without overrun, for a length
within the limit. -/
theorem beginCheck_accepted {n : Nat} {s : State} :
    beginCheck n s = .accepted ↔
      s.busCfg = true ∧ s.seq = .idle ∧ s.ovr = false ∧ n ≤ Config.maxPayload := by
  unfold beginCheck
  cases s.busCfg <;> cases s.ovr <;> by_cases hq : s.seq = .idle <;> by_cases hn : n > Config.maxPayload <;>
    simp [hq]

/-- A begin command that answers has either been refused with a result, or armed. -/
theorem beginWith_next {n : Nat} {arm : State → Except Fault State} {s t : State}
    (h : beginWith n arm s = .next t) :
    (∃ r, t = returnResult r s) ∨
      (s.busCfg = true ∧ s.seq = .idle ∧ s.ovr = false ∧ n ≤ Config.maxPayload ∧
        ∃ u, arm s = .ok u ∧ t = returnResult .ok u) := by
  unfold beginWith at h
  split at h
  · cases h
  · next r _ => cases h; exact .inl ⟨r, rfl⟩
  · next hacc =>
    obtain ⟨h1, h2, h3, h4⟩ := beginCheck_accepted.mp hacc
    split at h
    · cases h
    · next u hu => cases h; exact .inr ⟨h1, h2, h3, h4, u, hu, rfl⟩

/-- A STEP in a Waiting state that answers reports an overrun, completes, or counts a poll. -/
theorem stepWaiting_next {done : State → Except Fault State} {s t : State} (h : stepWaiting done s = .ok t) :
    (s.ovr = true ∧ t = returnResult .bufferOverrun (toIdle s)) ∨
      (s.ovr = false ∧ isComplete s = true ∧ ∃ u, done s = .ok u ∧ t = returnResult .ok (toIdle u)) ∨
      (s.ovr = false ∧ isComplete s = false ∧ t = stepIncomplete s) := by
  unfold stepWaiting at h
  split at h
  · next ho => cases h; exact .inl ⟨ho, rfl⟩
  · next ho =>
    have ho : s.ovr = false := by simpa using ho
    split at h
    · next hc =>
      split at h
      · cases h
      · next u hu => cases h; exact .inr (.inl ⟨ho, hc, u, hu, rfl⟩)
    · next hc => cases h; exact .inr (.inr ⟨ho, by simpa using hc, rfl⟩)

/-- A poll limit is at least 1 (R9). -/
theorem PollLimit_pos (l : PollLimit) : 0 < l.val.toNat :=
  Nat.pos_of_ne_zero fun h => l.property (BitVec.eq_of_toNat_eq h)

@[simp] theorem stallReached_none (c : Count32) : stallReached none c = false := rfl

theorem stallReached_some (l : PollLimit) (c : Count32) :
    stallReached (some l) c = decide (l.val.toNat ≤ c.toNat) := rfl

/-- The stall rule either counts a poll or gives the operation up. -/
theorem stepIncomplete_cases (s : State) :
    (stallReached s.params.stallLimit (satSucc s.stallCnt) = true ∧
        stepIncomplete s = returnResult .stalled
          { irqDisable .sequencer { s with stallCnt := satSucc s.stallCnt } with seq := .stalled }) ∨
      (stallReached s.params.stallLimit (satSucc s.stallCnt) = false ∧
        stepIncomplete s = returnResult .ok { s with stallCnt := satSucc s.stallCnt }) := by
  unfold stepIncomplete
  by_cases h : stallReached s.params.stallLimit (satSucc s.stallCnt) = true
  · exact .inl ⟨h, by simp [h]⟩
  · exact .inr ⟨by simpa using h, by simp [h]⟩

theorem satSucc_toNat (c : Count32) : (satSucc c).toNat = min (c.toNat + 1) (2 ^ 32 - 1) := by
  unfold satSucc
  simp

end Sys2Proof.Machine
end

