-- ==== Sys2Proof/Laws/Exec.lean ====
section
/-! SUPPORT. What each instruction that answers a next state can have done, in any state, and what the fetch can
answer. -/

namespace Sys2Proof.Machine

/-- INIT_BUS. -/
theorem exec_initBus_next {s t : State} (h : exec .initBus s = .next t) :
    s.busCfg = false ∧ t = returnResult .ok { busConfigure s with busCfg := true } := by
  simp only [exec, execInitBus] at h
  split at h
  · cases h
  · next hb => cases h; exact ⟨by simpa using hb, rfl⟩

/-- BEGIN_READ: a refusal by result, or an armed frame. -/
theorem exec_beginRead_next {addr : FlashAddr} {len : Cursor} {s t : State}
    (h : exec (.beginRead addr len) s = .next t) :
    (∃ r, t = returnResult r s) ∨
      (s.busCfg = true ∧ s.seq = .idle ∧ s.ovr = false ∧ len.toNat ≤ Config.maxPayload ∧
        t = returnResult .ok { s with
          snd := 0
          rcv := 0
          buf := Memory.writeRange s.buf 0 (readHeader addr)
          wr := BitVec.ofNat 16 (Config.readHdr + len.toNat)
          seq := .readArmed }) := by
  have h : beginWith len.toNat (armRead addr len.toNat) s = .next t := h
  rcases beginWith_next h with h | ⟨h1, h2, h3, h4, u, hu, rfl⟩
  · exact .inl h
  · exact .inr ⟨h1, h2, h3, h4, by rw [armFrame_next hu]⟩

/-- BEGIN_WRITE: a refusal by result, or an armed frame. -/
theorem exec_beginWrite_next {addr : FlashAddr} {payload : List Byte} {s t : State}
    (h : exec (.beginWrite addr payload) s = .next t) :
    (∃ r, t = returnResult r s) ∨
      (s.busCfg = true ∧ s.seq = .idle ∧ s.ovr = false ∧ payload.length ≤ Config.maxPayload ∧
        t = returnResult .ok { s with
          snd := 0
          rcv := 0
          buf := Memory.writeRange s.buf 0 (writeFrame addr payload)
          wr := BitVec.ofNat 16 (Config.writeHdr + payload.length)
          seq := .writeArmed }) := by
  have h : beginWith payload.length (armWrite addr payload) s = .next t := h
  rcases beginWith_next h with h | ⟨h1, h2, h3, h4, u, hu, rfl⟩
  · exact .inl h
  · exact .inr ⟨h1, h2, h3, h4, by rw [armFrame_next hu]⟩

/-- STEP, by the state it finds. -/
theorem exec_step_next {s t : State} (h : exec .step s = .next t) :
    (s.seq = .idle ∧ t = stepIdle s) ∨ (s.seq = .stalled ∧ t = stepStalled s) ∨
      (s.seq = .readArmed ∧ t = stepReadArmed s) ∨ (s.seq = .writeArmed ∧ t = stepWriteArmed s) ∨
      ((s.seq = .readWaiting ∨ s.seq = .writeWaiting) ∧ s.ovr = true ∧
        t = returnResult .bufferOverrun (toIdle s)) ∨
      (s.seq = .readWaiting ∧ s.ovr = false ∧ isComplete s = true ∧
        ∃ u, readDone s = .ok u ∧ t = returnResult .ok (toIdle u)) ∨
      (s.seq = .writeWaiting ∧ s.ovr = false ∧ isComplete s = true ∧ t = returnResult .ok (toIdle s)) ∨
      ((s.seq = .readWaiting ∨ s.seq = .writeWaiting) ∧ s.ovr = false ∧ isComplete s = false ∧
        t = stepIncomplete s) := by
  simp only [exec, execStep] at h
  split at h
  case h_1 hq => cases h; simp [hq]
  case h_2 hq => cases h; simp [hq]
  case h_3 hq => cases h; simp [hq]
  case h_6 hq => cases h; simp [hq]
  case h_4 hq =>
    rcases stepWaiting_next (outcomeOf_next h) with ⟨a, rfl⟩ | ⟨a, b, u, hu, rfl⟩ | ⟨a, b, rfl⟩
    · simp [hq, a]
    · simp [hq, a, b, hu]
    · simp [hq, a, b]
  case h_5 hq =>
    rcases stepWaiting_next (outcomeOf_next h) with ⟨a, rfl⟩ | ⟨a, b, u, hu, rfl⟩ | ⟨a, b, rfl⟩
    · simp [hq, a]
    · cases hu; simp [hq, a, b]
    · simp [hq, a, b]

/-- The completion copy changes the ExternalStore and the history, and its events neither enable nor disable `HR`. -/
theorem readDone_frame {s t : State} (h : readDone s = .ok t) :
    ∃ store cur es, t = { s with store := store, storeCur := cur, history := s.history ++ es } ∧
      (∀ e ∈ es, isEnable e = false ∧ isDisable e = false) ∧ (Memory.wf s.store → Memory.wf store) := by
  obtain ⟨store, cur, es, rfl, he, hw⟩ := storeCopy_frame h
  refine ⟨store, cur, { agent := .sequencer, prim := .storeReset } :: es, by simp [storeReset, emit], ?_, by simpa using hw⟩
  intro e hm
  rcases List.mem_cons.mp hm with rfl | hm
  · simp [isEnable, isDisable]
  · obtain ⟨b, rfl⟩ := he e hm
    simp [isEnable, isDisable]

/-- ABORT. -/
theorem exec_abort_next {s t : State} (h : exec .abort s = .next t) :
    (s.ie = true ∧ t = returnResult .ok (toIdle (irqDisable .sequencer s))) ∨
      (s.ie = false ∧ t = returnResult .ok (toIdle s)) := by
  simp only [exec, execAbort] at h
  cases hi : s.ie <;> simp [hi] at h <;> simp [h]

/-- PUMP. -/
theorem exec_pump_next {s t : State} (h : exec .pump s = .next t) :
    (s.ie = false ∧ t = s) ∨ (s.ie = true ∧ pumpBody s = .ok t) := by
  simp only [exec, execPump] at h
  split at h
  · next hi => exact .inr ⟨hi, outcomeOf_next h⟩
  · next hi => cases h; exact .inl ⟨by simpa using hi, rfl⟩

/-- The frame opcodes. -/
theorem exec_wire_next {i : Instr} {s t : State} (hw : i.channel = .wire) (h : exec i s = .next t) : t = s := by
  cases i <;> first | (cases hw; done) | (cases h; rfl)

/-- What the fetch can answer: an instruction in a state whose inputs have moved on, a state that waits, a reset, or a
refusal. -/
theorem fetch_cases (s : State) :
    (∃ i m h k r, fetch s = .run i { s with moves := m, host := h, txFree := k, rxOffer := r }) ∨
      (∃ m, fetch s = .settle { s with moves := m }) ∨
      (∃ l m, fetch s = .settle (hardReset l { s with moves := m })) ∨ ∃ r, fetch s = .refuse r := by
  have hh : ∀ s : State, (∃ i h, fetchHost s = .run i { s with host := h }) ∨ fetchHost s = .settle s ∨
      ∃ r, fetchHost s = .refuse r := by
    intro s
    unfold fetchHost
    split
    · exact .inr (.inl rfl)
    · split
      · exact .inl ⟨_, _, rfl⟩
      · exact .inr (.inr ⟨_, rfl⟩)
  unfold fetch
  split
  · rcases hh s with ⟨i, h, e⟩ | e | ⟨r, e⟩
    · exact .inl ⟨i, s.moves, h, s.txFree, s.rxOffer, by rw [e]⟩
    · exact .inr (.inl ⟨s.moves, by rw [e]⟩)
    · exact .inr (.inr (.inr ⟨r, e⟩))
  · next ms _ =>
    rcases hh { s with moves := ms } with ⟨i, h, e⟩ | e | ⟨r, e⟩
    · exact .inl ⟨i, ms, h, s.txFree, s.rxOffer, by rw [e]⟩
    · exact .inr (.inl ⟨ms, by rw [e]⟩)
    · exact .inr (.inr (.inr ⟨r, e⟩))
  · next k rx ms _ => exact .inl ⟨.pump, ms, s.host, k, rx, rfl⟩
  · next b ms _ =>
    split
    · next i r _ => exact .inl ⟨i, ms, s.host, s.txFree, s.rxOffer, rfl⟩
    · exact .inr (.inr (.inr ⟨_, rfl⟩))
  · next l ms _ => exact .inr (.inr (.inl ⟨l, ms, rfl⟩))

end Sys2Proof.Machine
end

