-- ==== Sys2Proof/Laws/PerInstr.lean ====
section
/-! SUPPORT. Statements made of every instruction, one lemma per constructor. -/

namespace Sys2Proof.Laws.ByteLength

/-- How many bytes an instruction takes on its channel (R105, R110, R111): a descriptor has 8, a BEGIN_WRITE its payload
besides, a frame opcode 1, the PUMP event none. -/
def bytesOf : Instr → Nat
  | .initBus => 8
  | .beginRead _ _ => 8
  | .beginWrite _ payload => 8 + payload.length
  | .step => 8
  | .isIdle => 8
  | .abort => 8
  | .pump => 0
  | .flashStatus => 1
  | .flashRead => 1
  | .flashId => 1
  | .flashWrite => 1
  | .flashErase => 1
  | .flashWriteEnable => 1
  | .flashBuffer2WriteEnable => 1
  | .flashBuffer2Write => 1
  | .flashBuffer2Commit => 1

/-- The encoder gives each instruction the length the spec gives it. -/
def Statement (i : Instr) : Prop := (encode i).length = bytesOf i

theorem initBus : Statement .initBus := descriptorBytes_length _

theorem beginRead (addr : FlashAddr) (len : Cursor) : Statement (.beginRead addr len) := descriptorBytes_length _

theorem beginWrite (addr : FlashAddr) (payload : List Byte) : Statement (.beginWrite addr payload) := by
  simp [Statement, encode, bytesOf]

theorem step : Statement .step := descriptorBytes_length _

theorem isIdle : Statement .isIdle := descriptorBytes_length _

theorem abort : Statement .abort := descriptorBytes_length _

theorem pump : Statement .pump := rfl

theorem flashStatus : Statement .flashStatus := rfl

theorem flashRead : Statement .flashRead := rfl

theorem flashId : Statement .flashId := rfl

theorem flashWrite : Statement .flashWrite := rfl

theorem flashErase : Statement .flashErase := rfl

theorem flashWriteEnable : Statement .flashWriteEnable := rfl

theorem flashBuffer2WriteEnable : Statement .flashBuffer2WriteEnable := rfl

theorem flashBuffer2Write : Statement .flashBuffer2Write := rfl

theorem flashBuffer2Commit : Statement .flashBuffer2Commit := rfl

end Sys2Proof.Laws.ByteLength
end

