-- ==== Sys2Proof/Tests/Slice0.lean ====
section
/-! SUPPORT. The model's own tests.  Expected values are those of spec/95_test_vectors.md, whose section or vector each
test names, or are worked out by hand from the rule named; and, for every obligation with hypotheses, a concrete state
and operands that meet them. -/

namespace Sys2Proof.Tests

open Sys2Proof.Machine

/-! ### Helpers -/

/-- A field of the next state, if there is one. -/
def ofNext {α : Type} (f : State → α) : Host.Outcome State Fault Refusal → Option α
  | .next t => some (f t)
  | .fault _ => none
  | .refused _ => none

/-- The fault, if there is one. -/
def ofFault : Host.Outcome State Fault Refusal → Option Fault
  | .next _ => none
  | .fault f => some f
  | .refused _ => none

/-- The refusal, if there is one. -/
def ofRefusal : Host.Outcome State Fault Refusal → Option Refusal
  | .next _ => none
  | .fault _ => none
  | .refused r => some r

/-- Is there a next state? -/
def answers (o : Host.Outcome State Fault Refusal) : Bool := (ofNext (fun _ => ()) o).isSome

/-- A start state: reset, with `IRQ_PRIORITY = 5`, the given `STALL_LIMIT` and `STORE_CAPACITY`, and memories of zeros. -/
def start (limit : Option PollLimit) (capacity : Nat) : State :=
  State.launch { irqPriority := 5, stallLimit := limit, storeCapacity := capacity } [] [] 0 0

/-- S0 of spec/95 after `init`, but for the buffer's bytes, which are zeros. -/
def ready : State := { start none 524 with busCfg := true }

/-- An event of the Sequencer. -/
def bySeq (p : Prim) : Event := { agent := .sequencer, prim := p }

/-- An event of the Pump. -/
def byPump (p : Prim) : Event := { agent := .pump, prim := p }

/-- An enabled operation with nothing in flight: `WR`, `SND` and `RCV` as given, the buffer holding `frame`. -/
def running (seq : SeqState) (wr snd rcv : Cursor) (frame : List Byte) : State :=
  { ready with
    seq := seq
    ie := true
    wr := wr
    snd := snd
    rcv := rcv
    buf := Memory.ofBytes 0 frame
    history := [bySeq (.irqEnable .hr)] }

/-- The same with the draws of one invocation. -/
def offered (txFree : Nat) (rx : List Byte) (s : State) : State := { s with txFree := txFree, rxOffer := rx }

/-- An armed operation. -/
def armed (seq : SeqState) (wr : Cursor) : State := { ready with seq := seq, wr := wr }

/-- A Waiting state whose operation PUMP has ended (`IE = 0`) at `RCV = rcv`. -/
def ended (seq : SeqState) (wr rcv : Cursor) (limit : Option PollLimit) (capacity : Nat) (count : Count32) : State :=
  { start limit capacity with busCfg := true, seq := seq, wr := wr, snd := wr, rcv := rcv, stallCnt := count }

/-- A Waiting state with an incomplete transfer. -/
def polling (seq : SeqState) (limit : Option PollLimit) (count : Count32) : State :=
  { ended seq 16 8 limit 524 count with ie := true, history := [bySeq (.irqEnable .hr)] }

/-! ### Well-formedness -/

theorem test_wf_payload : (Instr.beginWrite 0x3FF#24 [0x01#8, 0x02#8]).wf = true := by decide

theorem test_wf_longest_payload : (Instr.beginWrite 0#24 (List.replicate 65535 0#8)).wf = true := by
  show decide ((List.replicate 65535 0#8).length < 65536) = true
  rw [List.length_replicate]
  rfl

/-- The one check: a payload of 65536 bytes has no 16-bit `LEN` (R107, R117). -/
theorem test_ill_formed_payload : (Instr.beginWrite 0#24 (List.replicate 65536 0#8)).wf = false := by
  show decide ((List.replicate 65536 0#8).length < 65536) = false
  rw [List.length_replicate]
  rfl

/-! ### Decoding: words written out bit by bit from R105, R107, R108 -/

theorem test_decode_initBus :
    decodeTableWord 64 0b0000000000000000000000000000000000000000000000000000000000000001 = some .initBus := by
  decide

/-- `RSV1`, `LEN = 4`, `ADDR = 0x000100`, `RSV0`, `CMD = 2` (95 §2.1). -/
theorem test_decode_beginRead :
    decodeTableWord 64 0b0000000000000000000000000000010000000000000000010000000000000010 =
      some (.beginRead 0x000100#24 4#16) := by
  decide

/-- `A = 0xFFFFFF`, `N = 0xFFFF`: a legal encoding (95 §2.1). -/
theorem test_decode_beginRead_largest :
    decodeTableWord 64 0x0000FFFFFFFFFF02 = some (.beginRead 0xFFFFFF#24 0xFFFF#16) := by
  decide

/-- `LEN = 2`, `ADDR = 0x0003FF`, `CMD = 3`; the payload, above the table's bits, is zeros. -/
theorem test_decode_beginWrite :
    decodeTableWord 64 0b0000000000000000000000000000001000000000000000111111111100000011 =
      some (.beginWrite 0x0003FF#24 [0x00#8, 0x00#8]) := by
  decide

theorem test_decode_step :
    decodeTableWord 64 0b0000000000000000000000000000000000000000000000000000000000000100 = some .step := by
  decide

theorem test_decode_isIdle :
    decodeTableWord 64 0b0000000000000000000000000000000000000000000000000000000000000101 = some .isIdle := by
  decide

theorem test_decode_abort :
    decodeTableWord 64 0b0000000000000000000000000000000000000000000000000000000000000110 = some .abort := by
  decide

theorem test_decode_pump : decodeTableWord 0 0 = some .pump := by decide

theorem test_decode_flashStatus : decodeTableWord 8 0b11010111 = some .flashStatus := by decide

theorem test_decode_flashRead : decodeTableWord 8 0b11101000 = some .flashRead := by decide

theorem test_decode_flashId : decodeTableWord 8 0b10011111 = some .flashId := by decide

theorem test_decode_flashWrite : decodeTableWord 8 0b10000010 = some .flashWrite := by decide

theorem test_decode_flashErase : decodeTableWord 8 0b10000001 = some .flashErase := by decide

theorem test_decode_flashWriteEnable : decodeTableWord 8 0b10001000 = some .flashWriteEnable := by decide

theorem test_decode_flashBuffer2WriteEnable : decodeTableWord 8 0b10001001 = some .flashBuffer2WriteEnable := by
  decide

theorem test_decode_flashBuffer2Write : decodeTableWord 8 0b10000101 = some .flashBuffer2Write := by decide

theorem test_decode_flashBuffer2Commit : decodeTableWord 8 0b10000111 = some .flashBuffer2Commit := by decide

/-- The refused descriptors of 95 §2.1. -/
theorem test_decode_reserved :
    decodeDescriptor 0x0000000000000000#64 [] = .error .reservedCommand ∧
    decodeDescriptor 0x0000000000000007#64 [] = .error .reservedCommand ∧
    decodeDescriptor 0x000000000000000F#64 [] = .error .reservedCommand ∧
    decodeDescriptor 0x0000000000000014#64 [] = .error .reservedCommand ∧
    decodeDescriptor 0x0000000000000104#64 [] = .error .reservedCommand ∧
    decodeDescriptor 0x0000000100000001#64 [] = .error .reservedCommand ∧
    decodeDescriptor 0x0001000000000002#64 [] = .error .reservedCommand := by
  decide

/-- 95 §2.1: BEGIN_WRITE `A = 0x000010`, `N = 1` takes one stream byte and leaves the rest; with `N = 2` and one byte it
is malformed. -/
theorem test_decode_payload :
    decodeDescriptor 0x0000000100001003#64 [0x11#8, 0x04#8] = .ok (.beginWrite 0x000010#24 [0x11#8], [0x04#8]) ∧
    decodeDescriptor 0x0000000200000003#64 [0x11#8] = .error .malformedCommand := by
  decide

/-- The order of a descriptor's bytes in the host stream (log entry 1), and a stream that ends inside one (log entry
2). -/
theorem test_decode_stream :
    decode .host [0x02#8, 0x00#8, 0x01#8, 0x00#8, 0x04#8, 0x00#8, 0x00#8, 0x00#8] =
      .ok (.beginRead 0x000100#24 4#16, []) ∧
    decode .host [0x04#8, 0x00#8, 0x00#8] = .error .truncatedDescriptor := by
  decide

theorem test_encode_beginWrite :
    encode (.beginWrite 0x000010#24 [0x11#8]) =
      [0x03#8, 0x10#8, 0x00#8, 0x00#8, 0x01#8, 0x00#8, 0x00#8, 0x00#8, 0x11#8] := by
  decide

/-- 95 §2.2: address assembly. -/
theorem test_address_bytes :
    addrBytes (0x000400#24 &&& Config.writeAddrMask) = [0x00#8, 0x00#8, 0x00#8] ∧
    addrBytes (0x012345#24 &&& Config.writeAddrMask) = [0x00#8, 0x03#8, 0x45#8] ∧
    addrBytes (0xABCDEF#24 &&& Config.readAddrMask) = [0x00#8, 0x01#8, 0xEF#8] := by
  decide

/-- R79: 0xE8 is 1110 1000 on the wire. -/
theorem test_wire_bits : wireBits 0xE8#8 = [true, true, true, false, true, false, false, false] := by decide

/-- R113, R114. -/
theorem test_codes :
    [res8 .ok false, res8 .operationInProgress false, res8 .bufferOverrun false, res8 .stalled false, res8 .ok true] =
      [0x00#8, 0x01#8, 0x02#8, 0x03#8, 0x10#8] ∧
    [stateCode .idle, stateCode .readArmed, stateCode .readWaiting, stateCode .writeArmed, stateCode .writeWaiting,
      stateCode .stalled] = [0#3, 1#3, 2#3, 3#3, 4#3, 5#3] := by
  decide

/-! ### One step of each instruction -/

/-- 95 §2.3. -/
theorem test_initBus :
    ofNext (fun t => (t.busCfg, t.history, t.results)) (exec .initBus (start none 524)) =
      some (true, [bySeq .busConfigure], [0x00#8]) := by
  decide

/-- 95 §2.4: `bread 0xABCDEF, 1`. -/
theorem test_beginRead :
    ofNext (fun t => (t.wr, t.seq, Memory.readRange t.buf 0 12)) (exec (.beginRead 0xABCDEF#24 1#16) ready) =
      some (13#16, .readArmed, [0xE8#8, 0x00#8, 0x01#8, 0xEF#8] ++ List.replicate 8 0x00#8) := by
  decide

/-- R72: the read arm leaves `BUF[12 ..]` alone. -/
theorem test_beginRead_filler :
    ofNext (fun t => Memory.readRange t.buf 11 3)
        (exec (.beginRead 0#24 512#16) { ready with buf := Memory.ofBytes 0 (List.replicate 14 0xAA#8) }) =
      some [0x00#8, 0xAA#8, 0xAA#8] := by
  decide

/-- 95 §2.5: `bwrite 0x012345, [5A]`. -/
theorem test_beginWrite :
    ofNext (fun t => (t.wr, t.seq, Memory.readRange t.buf 0 6)) (exec (.beginWrite 0x012345#24 [0x5A#8]) ready) =
      some (5#16, .writeArmed, [0x82#8, 0x00#8, 0x03#8, 0x45#8, 0x5A#8, 0x00#8]) := by
  decide

/-- 95 §2.6: STEP in ReadArmed, the order of its two events. -/
theorem test_step_readArmed :
    ofNext (fun t => (t.seq, t.ie, t.hrPriority, t.history)) (exec .step (armed .readArmed 16)) =
      some (.readWaiting, true, 5, [bySeq (.irqEnable .hr), bySeq (.irqSetPriority .hr 5)]) := by
  decide

/-- 95 §2.6: with `STALL_LIMIT = none` a counter at 0xFFFFFFFF stays there. -/
theorem test_step_saturates :
    ofNext (fun t => (t.seq, t.stallCnt, t.results)) (exec .step (polling .readWaiting none 0xFFFFFFFF#32)) =
      some (.readWaiting, 0xFFFFFFFF#32, [0x00#8]) := by
  decide

/-- 95 §2.7. -/
theorem test_isIdle :
    ofNext State.results (exec .isIdle (start none 524)) = some [0x10#8] ∧
    ofNext State.results (exec .isIdle (armed .readArmed 16)) = some [0x00#8] := by
  decide

/-- 95 §2.8: ABORT in ReadWaiting with `IE = 1`, two bytes in flight. -/
theorem test_abort :
    ofNext (fun t => (t.seq, t.ie, t.snd, t.inflight, t.history))
        (exec .abort { running .readWaiting 16 2 0 [] with inflight := 2 }) =
      some (.idle, false, 2#16, 2, [bySeq (.irqEnable .hr), bySeq (.irqDisable .hr)]) := by
  decide

/-- 95 V-P7: the fifth byte breaks the bus duty and is not taken. -/
theorem test_pump_overrun :
    ofNext (fun t => ((t.snd, t.rcv, t.inflight), (t.ie, t.ovr, t.rxOffer, Memory.readRange t.buf 7 5)))
        (exec .pump (offered 4 [0x51#8, 0x52#8, 0x53#8, 0x54#8, 0x55#8]
          (running .readWaiting 12 8 8 [1#8, 2#8, 3#8, 4#8, 5#8, 6#8, 7#8, 8#8, 9#8, 10#8, 11#8, 12#8]))) =
      some ((12#16, 12#16, 0), (false, true, [0x55#8], [8#8, 0x51#8, 0x52#8, 0x53#8, 0x54#8])) := by
  decide

/-- 95 V-P10: the transmit loop stops at `WR`. -/
theorem test_pump_stops_at_wr :
    ofNext (fun t => (t.snd, t.rcv, t.inflight, t.ie, t.history.drop 1))
        (exec .pump { offered 8 [0xA1#8, 0xA2#8, 0xA3#8] (running .readWaiting 14 11 10
          [1#8, 2#8, 3#8, 4#8, 5#8, 6#8, 7#8, 8#8, 9#8, 10#8, 11#8, 12#8, 13#8, 14#8]) with inflight := 1 }) =
      some (14#16, 13#16, 1, true,
        [byPump (.busTx 12#8), byPump (.busTx 13#8), byPump (.busTx 14#8), byPump .busRx, byPump .busRx,
          byPump .busRx]) := by
  decide

/-- R7, R250: being recognised on the wire changes nothing of the block (log entry 9). -/
theorem test_frame_opcode :
    ofNext (fun t => (t.moves, t.history, t.seq)) (step (ready.withFetchWord 8 0x9F)) = some ([], [], .idle) := by
  decide

/-! ### Fetch -/

/-- A word of each channel as the first instruction after reset (log entry 17). -/
theorem test_first_instruction :
    ofNext (fun t => (t.busCfg, t.results)) (step (State.reset.withFetchWord 64 0x0000000000000001)) =
      some (true, [0x00#8]) ∧
    ofNext State.results (step (State.reset.withFetchWord 64 0x0000000000000005)) = some [0x10#8] ∧
    ofFault (step (State.reset.withFetchWord 64 0x0000000400010002)) =
      some (.protocolViolation .beginBeforeInitBus) ∧
    ofRefusal (step (State.reset.withFetchWord 64 0x0000000000000104)) = some .reservedCommand ∧
    ofRefusal (step (State.reset.withFetchWord 8 0x00)) = some .unknownFrameOpcode := by
  decide

/-- A hardware-ready event from a reset state with `HR` enabled: the empty frame is complete, so PUMP disables. -/
theorem test_first_event :
    ofNext (fun t => (t.ie, t.history)) (step (State.reset.withFetchWord 0 0)) =
      some (false, [byPump (.irqDisable .hr)]) := by
  decide

/-- R312: with no command the block waits. -/
theorem test_waits : ofNext (fun t => (t.seq, t.results)) (step State.reset) = some (.idle, []) := by decide

/-- R313: a reset during an operation. -/
theorem test_reset_move :
    ofNext (fun t => (t.seq, t.ie, t.inflight, t.wr, Memory.readRange t.buf 0 2))
        (step { running .readWaiting 16 2 0 [] with inflight := 2, moves := [.reset [0xAA#8]] }) =
      some (.idle, false, 2, 0#16, [0xAA#8, 0x00#8]) := by
  decide

/-! ### The script notation (R117 to R119) -/

theorem test_script_bread :
    parseLine ['b', 'r', 'e', 'a', 'd', ' ', '0', 'x', '1', '0', '0', ',', ' ', '4', ' ', ';', 'x'] =
      some (.commands [.beginRead 0x000100#24 4#16]) := by
  decide

theorem test_script_write :
    parseLine ['w', 'r', 'i', 't', 'e', ' ', '1', '6', ',', ' ', '[', '1', '1', ',', ' ', '0', 'x', 'F', ']'] =
      some (.commands [.beginWrite 0x000010#24 [0x11#8, 0x0F#8], .step]) := by
  decide

theorem test_script_poll :
    parseLine ['p', 'o', 'l', 'l', ' ', '2'] = some (.commands [.step, .step]) := by
  decide

theorem test_script_pump :
    parseLine ['.', 'p', 'u', 'm', 'p', ' ', 't', 'x', '=', '3', ' ', 'r', 'x', '=', '[', 'F', 'F', ' ', 'c', '3', ']'] =
      some (.pump 3 [0xFF#8, 0xC3#8]) := by
  decide

/-- R117: a 25-bit address is rejected. -/
theorem test_script_rejects :
    parseLine ['b', 'r', 'e', 'a', 'd', ' ', '0', 'x', '1', '0', '0', '0', '0', '0', '0', ',', ' ', '4'] = none := by
  decide

/-- 95 program P4: the loopback queue after an abort with two bytes in flight. -/
theorem test_echo_offer :
    echoOffer { running .writeWaiting 5 0 0 [0x82#8, 0x00#8, 0x00#8, 0x10#8, 0x11#8] with
      inflight := 2
      history := [byPump (.busTx 0xE8#8), byPump (.busTx 0x00#8), bySeq (.irqDisable .hr), bySeq (.irqEnable .hr)] } =
      [0xE8#8, 0x00#8, 0x82#8, 0x00#8, 0x00#8, 0x10#8, 0x11#8] := by
  decide

/-- R119: a directive is allowed only while `IE = 1`. -/
theorem test_directive_needs_enable : issueLine .echo ready = none := by decide

/-! ### The hypotheses of the obligations can be met

One theorem per obligation with hypotheses: a concrete state and operands that meet all of them, for each clause, at a
boundary of its range where it has one. -/

theorem test_witness_DecodeUndoesEncode :
    (Instr.beginWrite 0xFFFFFF#24 [0x5A#8]).wf = true ∧ (Instr.beginRead 0#24 0xFFFF#16).wf = true := by
  decide

theorem test_witness_EncodeUndoesDecode :
    decode .wire [0xE8#8, 0x00#8] = .ok (.flashRead, [0x00#8]) ∧ decode .event [0x00#8] = .ok (.pump, [0x00#8]) ∧
    decode .host [0x06#8, 0#8, 0#8, 0#8, 0#8, 0#8, 0#8, 0#8, 0x5A#8] = .ok (.abort, [0x5A#8]) := by
  decide

/-- Each of the five reasons, at the ends of the reserved codes. -/
theorem test_witness_ReservedDescriptorsAreRefused :
    (HostTurn { ready with host := descriptorBytes 0#64 ++ [] } ∧ (cmdField 0#64).toNat = 0) ∧
    7 ≤ (cmdField 7#64).toNat ∧ 7 ≤ (cmdField 0xF#64).toNat ∧ rsv0Field 0x14#64 ≠ 0 ∧
    rsv1Field 0x0001000000000002#64 ≠ 0 ∧
    ((cmdField 0x0000000000000104#64).toNat ∈ [1, 4, 5, 6] ∧ addrField 0x0000000000000104#64 ≠ 0) ∧
    ((cmdField 0x0000000100000001#64).toNat ∈ [1, 4, 5, 6] ∧ lenField 0x0000000100000001#64 ≠ 0) :=
  ⟨⟨.inl rfl, by decide⟩, by decide, by decide, by decide, by decide, by decide, by decide⟩

/-- One byte short of `LEN = 2`, and nothing of `LEN = 65535`. -/
theorem test_witness_ShortPayloadsAreRefused :
    (HostTurn { ready with host := descriptorBytes (mkDescriptor 0x3#4 0 2) ++ [0x11#8] } ∧
      [0x11#8].length < (2#16).toNat) ∧
    ([] : List Byte).length < (0xFFFF#16).toNat :=
  ⟨⟨.inl rfl, by decide⟩, by decide⟩

theorem test_witness_StepRunsTheHostsCommand :
    (HostTurn { ready with host := encode .abort } ∧ decode .host (encode .abort) = .ok (.abort, [])) ∧
    HostTurn { ready with host := encode .abort, moves := [.host, .ready 1 []] } :=
  ⟨⟨.inl rfl, by decide⟩, .inr rfl⟩

theorem test_witness_StepRunsTheEvent :
    { ready with moves := [.ready 8 [0xFF#8]] }.moves = .ready 8 [0xFF#8] :: [] ∧
    ({ ready with moves := [.frameByte 0xE8#8] }.moves = .frameByte 0xE8#8 :: [] ∧
      decode .wire [0xE8#8] = .ok (.flashRead, [])) := by
  decide

/-- 95 program P4: `bwrite 0x10, [11]` in ReadArmed. -/
theorem test_witness_RejectedWriteConsumesItsStream :
    HostTurn { armed .readArmed 16 with host := encode (.beginWrite 0x10#24 [0x11#8]) ++ [0x04#8] } ∧
    [0x11#8].length < 65536 ∧ (armed .readArmed 16).busCfg = true ∧ (armed .readArmed 16).seq ≠ .idle :=
  ⟨.inl rfl, by decide, by decide, by decide⟩

theorem test_witness_FrameOpcodesLeaveTheBlockAlone :
    { ready with moves := [.frameByte 0x87#8] }.moves = .frameByte 0x87#8 :: [] ∧
    { ready with moves := [.frameByte 0x86#8] }.moves = .frameByte 0x86#8 :: [] := by
  decide

theorem test_witness_InitBusConfiguresOnce : (start none 524).busCfg = false := by decide

theorem test_witness_BootOrderFaults : ready.busCfg = true ∧ (start none 524).busCfg = false := by decide

/-- The shortest and the longest read. -/
theorem test_witness_BeginReadArms :
    ready.busCfg = true ∧ ready.seq = .idle ∧ ready.ovr = false ∧ (0#16).toNat ≤ 512 ∧ (512#16).toNat ≤ 512 ∧
    Memory.wf ready.buf := by
  decide

/-- The shortest and the longest write. -/
theorem test_witness_BeginWriteArms :
    ready.busCfg = true ∧ ready.seq = .idle ∧ ready.ovr = false ∧ ([] : List Byte).length ≤ 512 ∧
    (List.replicate 512 0x5A#8).length ≤ 512 ∧ Memory.wf ready.buf := by
  refine ⟨rfl, rfl, rfl, by decide, ?_, by decide⟩
  rw [List.length_replicate]

theorem test_witness_BusyBeginIsRejected :
    (armed .writeArmed 4).busCfg = true ∧ (armed .writeArmed 4).seq ≠ .idle := by
  decide

/-- The overrun itself, a STEP while `OVR = 1`, and the Idle state after it. -/
theorem test_witness_OverrunIsStickyAndBlocksBegin :
    answers (exec .pump (offered 1 [0x01#8, 0x02#8] (running .readWaiting 1 0 0 []))) = true ∧
    answers (exec .step { running .readWaiting 1 1 1 [] with ovr := true }) = true ∧
    ({ ready with ovr := true }.busCfg = true ∧ { ready with ovr := true }.seq = .idle ∧
      { ready with ovr := true }.ovr = true) := by
  decide

/-- One byte too many. -/
theorem test_witness_TooLongBeginIsRejected :
    ready.busCfg = true ∧ ready.seq = .idle ∧ ready.ovr = false ∧ 512 < (513#16).toNat ∧
    512 < (List.replicate 513 0x5A#8).length := by
  refine ⟨rfl, rfl, rfl, by decide, ?_⟩
  rw [List.length_replicate]
  decide

theorem test_witness_FramesStayInThePage :
    Memory.wf ready.buf ∧ ready.seq = .idle ∧
    ofNext (fun t => decide (t.seq ≠ .idle)) (exec (.beginRead 0xABCDEF#24 1#16) ready) = some true ∧
    ofNext (fun t => decide (t.seq ≠ .idle)) (exec (.beginWrite 0x000400#24 []) ready) = some true := by
  decide

theorem test_witness_StepRestsInIdleAndStalled :
    ready.seq = .idle ∧ (armed .stalled 4).seq = .stalled ∧
    ofNext (fun t => decide (t.seq ≠ .stalled)) (exec .abort (armed .stalled 4)) = some true := by
  decide

theorem test_witness_StepEnablesArmedRead : (armed .readArmed 16).seq = .readArmed := by decide

theorem test_witness_StepEnablesArmedWrite : (armed .writeArmed 4).seq = .writeArmed := by decide

/-- 95 §2.6: an overrun and completion together. -/
theorem test_witness_StepReportsOverrunFirst :
    (({ ended .readWaiting 12 12 none 524 0 with ovr := true }).seq = .readWaiting ∧
      ({ ended .readWaiting 12 12 none 524 0 with ovr := true }).ovr = true) ∧
    ({ ended .writeWaiting 4 4 none 524 0 with ovr := true }).seq = .writeWaiting := by
  decide

/-- A store of exactly `WR` bytes, and 95 §2.6's store of 12 for 13. -/
theorem test_witness_StepCopiesCompletedRead :
    ((ended .readWaiting 12 12 none 12 0).seq = .readWaiting ∧ (ended .readWaiting 12 12 none 12 0).ovr = false ∧
      (12#16).toNat ≤ 524 ∧ Memory.wf (ended .readWaiting 12 12 none 12 0).store ∧ (12#16).toNat ≤ 12) ∧
    ofFault (exec .step (ended .readWaiting 13 13 none 12 0)) = some (.storeOverflow 12) := by
  decide

/-- The second clause with the stall limit reached on the same STEP: completion wins (95 §2.6). -/
theorem test_witness_StepFinishesWrite :
    ({ ended .writeWaiting 4 4 none 524 0 with ovr := true }).ovr = true ∧
    ((ended .writeWaiting 4 4 (some ⟨3, by decide⟩) 524 2).seq = .writeWaiting ∧ (ended .writeWaiting 4 4 (some ⟨3, by decide⟩) 524 2).ovr = false ∧
      (ended .writeWaiting 4 4 (some ⟨3, by decide⟩) 524 2).rcv = (ended .writeWaiting 4 4 (some ⟨3, by decide⟩) 524 2).wr) := by
  decide

/-- 95 §2.6: below the limit, at the limit, and at the largest limit. -/
theorem test_witness_StepAppliesStallRule :
    ((polling .writeWaiting (some ⟨3, by decide⟩) 1).seq = .writeWaiting ∧ (polling .writeWaiting (some ⟨3, by decide⟩) 1).ovr = false ∧
      (polling .writeWaiting (some ⟨3, by decide⟩) 1).rcv ≠ (polling .writeWaiting (some ⟨3, by decide⟩) 1).wr) ∧
    ofNext (fun t => (t.seq, t.stallCnt)) (exec .step (polling .writeWaiting (some ⟨3, by decide⟩) 2)) = some (.stalled, 3#32) ∧
    ofNext (fun t => (t.seq, t.stallCnt)) (exec .step (polling .readWaiting (some ⟨0xFFFFFFFF#32, by decide⟩) 0xFFFFFFFE#32)) =
      some (.stalled, 0xFFFFFFFF#32) := by
  decide

theorem test_witness_HungBusWaitsForEver :
    (polling .readWaiting none 5).seq = .readWaiting ∧ (polling .readWaiting none 5).ovr = false ∧
    (polling .readWaiting none 5).rcv ≠ (polling .readWaiting none 5).wr ∧
    (polling .readWaiting none 5).params.stallLimit = none := by
  decide

theorem test_witness_StallLimitBoundsTheWait :
    (polling .writeWaiting (some ⟨1, by decide⟩) 0).seq = .writeWaiting ∧ (polling .writeWaiting (some ⟨1, by decide⟩) 0).ovr = false ∧
    (polling .writeWaiting (some ⟨1, by decide⟩) 0).rcv ≠ (polling .writeWaiting (some ⟨1, by decide⟩) 0).wr ∧
    (polling .writeWaiting (some ⟨1, by decide⟩) 0).params.stallLimit = some ⟨1#32, by decide⟩ ∧
    (polling .writeWaiting (some ⟨1, by decide⟩) 0).stallCnt = 0 := by
  decide

theorem test_witness_IsIdleAnswersOnlyTheState : ready.seq = .idle ∧ (armed .stalled 4).seq ≠ .idle := by decide

/-! #### PUMP -/

/-- A frame of 20 bytes, 8 of them sent and in flight (95 V-P2). -/
def halfway : State :=
  { offered 8 [0x51#8, 0x52#8] (running .readWaiting 20 8 0 (List.replicate 20 0x11#8)) with inflight := 8 }

theorem test_halfway_cursors : CursorsOk halfway := by
  unfold CursorsOk
  decide

theorem test_witness_PumpMovesOneBurst : halfway.ie = true ∧ CursorsOk halfway ∧ Memory.wf halfway.buf :=
  ⟨rfl, test_halfway_cursors, by decide⟩

theorem test_witness_PumpWritesOnlyItsOwnState : answers (exec .pump halfway) = true := by decide

theorem test_witness_PumpNeedsTheEnable : ready.ie = false := by decide

theorem test_witness_BurstIsBounded :
    CursorsOk halfway ∧ answers (exec .pump halfway) = true ∧ halfway.ie = true ∧ 8 ≤ halfway.txFree :=
  ⟨test_halfway_cursors, by decide, rfl, by decide⟩

theorem test_witness_ReceivedBytesAccumulate :
    CursorsOk halfway ∧ Memory.wf halfway.buf ∧ halfway.ie = true ∧ answers (exec .pump halfway) = true :=
  ⟨test_halfway_cursors, by decide, rfl, by decide⟩

/-! #### Invariants -/

theorem test_halfway_good : Good halfway :=
  ⟨test_halfway_cursors, by unfold EnableOk; decide, by unfold ArmedOk; decide, by unfold WaitingOk; decide,
    by unfold BootOk; decide, ⟨by decide, by decide, by decide⟩, by unfold LedgerOk; decide⟩

theorem test_armed_good : Good (armed .readArmed 12) :=
  ⟨by unfold CursorsOk; decide, by unfold EnableOk; decide, by unfold ArmedOk; decide, by unfold WaitingOk; decide,
    by unfold BootOk; decide, ⟨by decide, by decide, by decide⟩, by unfold LedgerOk; decide⟩

/-- A completed read that PUMP has disabled, for a store of one byte less than its frame. -/
def overfull : State :=
  { ended .readWaiting 2 2 none 1 0 with history := [bySeq (.irqEnable .hr), byPump (.irqDisable .hr)] }

theorem test_overfull_good : Good overfull :=
  ⟨by unfold CursorsOk; decide, by unfold EnableOk; decide, by unfold ArmedOk; decide, by unfold WaitingOk; decide,
    by unfold BootOk; decide, ⟨by decide, by decide, by decide⟩, by unfold LedgerOk; decide⟩

/-- The invariants do not speak of the inputs. -/
theorem test_good_inputs {s : State} (g : Good s) (moves : List Move) (host : List Byte) :
    Good { s with moves := moves, host := host } :=
  ⟨g.1, g.2, g.3, g.4, g.5, g.6, g.7⟩

theorem test_witness_EveryStepKeepsGood :
    Good { halfway with moves := [.ready 8 [0x51#8]], host := [] } ∧
    answers (step { halfway with moves := [.ready 8 [0x51#8]], host := [] }) = true :=
  ⟨test_good_inputs test_halfway_good _ _, by decide⟩

theorem test_witness_LaunchIsGood :
    Memory.wf [(0, 0xAA#8), (523, 0x01#8)] ∧ Memory.within [(0, 0xAA#8), (523, 0x01#8)] 524 ∧ Memory.wf [] := by
  decide

theorem test_witness_ResetKeepsBytesInFlight :
    { halfway with moves := [.reset [0xAA#8]] }.moves = .reset [0xAA#8] :: [] := by
  decide

/-- A burst whose draws keep the duty at its boundary, and an enabling STEP with nothing in flight. -/
theorem test_witness_CursorOrderUnderTheDuty :
    (Good halfway ∧ DuplexOk halfway ∧ BusDuty (offered 0 (List.replicate 8 0x51#8) halfway) ∧ BusDuty halfway ∧
      answers (exec .pump halfway) = true ∧ halfway.ie = true) ∧
    (Good (armed .readArmed 12) ∧ DuplexOk (armed .readArmed 12) ∧ isArmed (armed .readArmed 12) = true ∧
      (armed .readArmed 12).inflight = 0 ∧ answers (exec .step (armed .readArmed 12)) = true) :=
  ⟨⟨test_halfway_good, by unfold DuplexOk; decide, by unfold BusDuty; decide, by unfold BusDuty; decide, by decide, rfl⟩,
    ⟨test_armed_good, by unfold DuplexOk; decide, by decide, rfl, by decide⟩⟩

theorem test_witness_DutifulBusNeverOverruns :
    Good halfway ∧ DuplexOk halfway ∧ BusDuty halfway ∧ halfway.ovr = false :=
  ⟨test_halfway_good, by unfold DuplexOk; decide, by unfold BusDuty; decide, rfl⟩

theorem test_witness_FrameGoesOutUnspoilt :
    Good halfway ∧ DuplexOk halfway ∧ BusDuty halfway ∧ halfway.ie = true ∧
    (List.replicate 20 0x11#8).length = halfway.wr.toNat ∧
    (∀ a, halfway.snd.toNat ≤ a → a < halfway.wr.toNat →
      Memory.read halfway.buf a = (List.replicate 20 0x11#8).getD a 0x00#8) ∧
    answers (exec .pump halfway) = true := by
  refine ⟨test_halfway_good, by unfold DuplexOk; decide, by unfold BusDuty; decide, rfl, rfl, ?_, by decide⟩
  intro a _ h
  have h : a < 20 := h
  interval_cases a <;> rfl

theorem test_witness_OnlyTheHostsDutiesFault :
    524 ≤ 524 ∧ (Good { overfull with moves := [], host := encode .step } ∧
      ofFault (step { overfull with moves := [], host := encode .step }) = some (.storeOverflow 1)) ∧
    (Good { overfull with moves := [], host := encode .initBus } ∧
      ofFault (step { overfull with moves := [], host := encode .initBus }) =
        some (.protocolViolation .secondInitBus)) :=
  ⟨Nat.le_refl _, ⟨test_good_inputs test_overfull_good _ _, by decide⟩, ⟨test_good_inputs test_overfull_good _ _, by decide⟩⟩

/-! #### Who writes what -/

theorem test_witness_WrIsWrittenOnlyByArming :
    ofNext (fun t => decide (t.wr ≠ ready.wr)) (exec (.beginRead 0#24 512#16) ready) = some true ∧
    ofNext (fun t => decide (t.wr ≠ ready.wr)) (exec (.beginWrite 0#24 []) ready) = some true ∧ EnableOk ready :=
  ⟨by decide, by decide, by unfold EnableOk; decide⟩

theorem test_witness_CursorsAreMovedOnlyByPumpOrArming :
    ofNext (fun t => decide (t.snd ≠ halfway.snd ∨ t.rcv ≠ halfway.rcv)) (exec .pump halfway) = some true ∧
    ofNext (fun t => decide (t.snd ≠ 4 ∨ t.rcv ≠ 4))
      (exec (.beginRead 0#24 0#16) { ready with wr := 4, snd := 4, rcv := 4 }) = some true := by
  decide

theorem test_witness_EnableHasFourWriters :
    ((armed .writeArmed 4).ie = false ∧ ofNext State.ie (exec .step (armed .writeArmed 4)) = some true) ∧
    (ofNext State.ie (exec .pump (offered 1 [0x01#8] (running .readWaiting 1 0 0 []))) = some false) ∧
    (ofNext State.ie (exec .step (polling .readWaiting (some ⟨1, by decide⟩) 0)) = some false) ∧
    (ofNext State.ie (exec .abort halfway) = some false) := by
  decide

theorem test_witness_EnvironmentIsWrittenOnlyBySteps :
    ofNext (fun t => decide (t.storeCur ≠ 0)) (exec .step (ended .readWaiting 2 2 none 524 0)) = some true ∧
    ofNext (fun t => decide (t.hrPriority ≠ 0)) (exec .step (armed .readArmed 16)) = some true := by
  decide

theorem test_witness_NoOtherTransitionExists :
    ofNext State.seq (exec (.beginRead 0#24 0#16) ready) = some .readArmed ∧
    ofNext State.seq (exec (.beginWrite 0#24 []) ready) = some .writeArmed ∧
    ofNext State.seq (exec .step (armed .readArmed 16)) = some .readWaiting ∧
    ofNext State.seq (exec .step (armed .writeArmed 4)) = some .writeWaiting ∧
    ofNext State.seq (exec .step (ended .writeWaiting 4 4 none 524 0)) = some .idle ∧
    ofNext State.seq (exec .abort (armed .stalled 4)) = some .idle := by
  decide

theorem test_witness_OnlyTwoOpcodesAreArmed :
    Memory.wf ready.buf ∧
    ofNext (fun t => decide (t.buf ≠ ready.buf)) (exec (.beginRead 0#24 0#16) ready) = some true ∧
    ofNext (fun t => decide (t.buf ≠ ready.buf)) (exec (.beginWrite 0#24 []) ready) = some true := by
  decide

theorem test_witness_HistoryOnlyGrows : answers (exec .initBus (start none 524)) = true := by decide

end Sys2Proof.Tests
end

/-! The history and the results are append-only, and no instruction writes the parameters or the host's inputs (R17,
R112; log entry 12). -/

namespace Sys2Proof.Machine

/-- `t` is `s` with events appended to the history and at most one result word returned, the parameters and the host's
inputs being the same. -/
def Grows (s t : State) : Prop :=
  (∃ es, t.history = s.history ++ es) ∧ (∃ rs, t.results = s.results ++ rs ∧ rs.length ≤ 1) ∧
    t.params = s.params ∧ t.host = s.host ∧ t.moves = s.moves

theorem Grows.refl (s : State) : Grows s s := by simp [Grows]

theorem returnResult_grows (r : ResultCode) (s : State) : Grows s (returnResult r s) := by simp [Grows]

theorem stepIncomplete_grows (s : State) : Grows s (stepIncomplete s) := by
  rcases stepIncomplete_cases s with ⟨-, h⟩ | ⟨-, h⟩
  · rw [h]; simp [Grows]
  · rw [h]; simp [Grows]

theorem exec_initBus_grows {s t : State} (h : exec .initBus s = .next t) : Grows s t := by
  obtain ⟨-, rfl⟩ := exec_initBus_next h
  simp [Grows]

theorem exec_beginRead_grows {addr : FlashAddr} {len : Cursor} {s t : State}
    (h : exec (.beginRead addr len) s = .next t) : Grows s t := by
  rcases exec_beginRead_next h with ⟨r, rfl⟩ | ⟨-, -, -, -, rfl⟩
  · exact returnResult_grows r s
  · simp [Grows]

theorem exec_beginWrite_grows {addr : FlashAddr} {payload : List Byte} {s t : State}
    (h : exec (.beginWrite addr payload) s = .next t) : Grows s t := by
  rcases exec_beginWrite_next h with ⟨r, rfl⟩ | ⟨-, -, -, -, rfl⟩
  · exact returnResult_grows r s
  · simp [Grows]

/-- A completed read is the one STEP whose events are not a fixed list: the copy appends one for each byte. -/
theorem exec_step_grows {s t : State} (h : exec .step s = .next t) : Grows s t := by
  rcases exec_step_next h with ⟨-, rfl⟩ | ⟨-, rfl⟩ | ⟨-, rfl⟩ | ⟨-, rfl⟩ | ⟨-, -, rfl⟩ | ⟨-, -, -, u, hcopy, rfl⟩ |
    ⟨-, -, -, rfl⟩ | ⟨-, -, -, rfl⟩
  · exact returnResult_grows .ok s
  · exact returnResult_grows .stalled s
  · simp [Grows, stepReadArmed]
  · simp [Grows, stepWriteArmed]
  · simp [Grows]
  · obtain ⟨store, cur, es, rfl, -, -⟩ := readDone_frame hcopy
    simp [Grows]
  · simp [Grows]
  · exact stepIncomplete_grows s

theorem exec_isIdle_grows {s t : State} (h : exec .isIdle s = .next t) : Grows s t := by
  cases h
  simp [Grows]

theorem exec_abort_grows {s t : State} (h : exec .abort s = .next t) : Grows s t := by
  rcases exec_abort_next h with ⟨-, rfl⟩ | ⟨-, rfl⟩
  · simp [Grows]
  · simp [Grows]

/-- The check after both loops adds an `IrqDisable` to the history, or nothing (R147). -/
theorem pumpFinish_grows (overrun : Bool) {s u : State} (h : Grows s u) : Grows s (pumpFinish overrun u) := by
  obtain ⟨⟨es, hes⟩, hrest⟩ := h
  rcases pumpFinish_cases overrun u with ⟨hf, -⟩ | ⟨hf, -⟩ | ⟨hf, -⟩
  · rw [hf]; exact ⟨by simp [hes], hrest⟩
  · rw [hf]; exact ⟨by simp [hes], hrest⟩
  · rw [hf]; exact ⟨⟨es, hes⟩, hrest⟩

/-- By the frame of one invocation: the events of both loops, then those of the check. -/
theorem exec_pump_grows {s t : State} (h : exec .pump s = .next t) : Grows s t := by
  rcases exec_pump_next h with ⟨-, rfl⟩ | ⟨-, hbody⟩
  · exact .refl _
  · obtain ⟨_, _, _, _, _, _, _, _, overrun, rfl, -, -⟩ := pumpBody_frame hbody
    exact pumpFinish_grows overrun (by simp [Grows])

theorem exec_wire_grows {i : Instr} {s t : State} (hw : i.channel = .wire) (h : exec i s = .next t) : Grows s t := by
  rw [exec_wire_next hw h]
  exact .refl s

theorem exec_grows {i : Instr} {s t : State} (h : exec i s = .next t) : Grows s t := by
  cases i
  case initBus => exact exec_initBus_grows h
  case beginRead => exact exec_beginRead_grows h
  case beginWrite => exact exec_beginWrite_grows h
  case step => exact exec_step_grows h
  case isIdle => exact exec_isIdle_grows h
  case abort => exact exec_abort_grows h
  case pump => exact exec_pump_grows h
  all_goals exact exec_wire_grows rfl h

/-- Settles O49: what each instruction that answers can have done, by its channel and, for the host's commands, by its
own case lemma. -/
theorem historyOnlyGrows : Obligations.HistoryOnlyGrows := by
  intro i s t h
  exact exec_grows h

end Sys2Proof.Machine

/-! What each instruction can do, sorted by shape, and so who writes `OVR`, `IE` and the environment.  The case split over
the instructions is made once, in `exec_next`, and that over the states STEP finds once, in `exec_step_move`. -/

namespace Sys2Proof.Machine

/-! ### The instructions that neither poll, pump nor abort -/

/-- What INIT_BUS, the begin commands, IS_IDLE and the frame opcodes can do to a state: return a result word or nothing
at all, configure the bus (R210), or arm a frame that fits the buffer (R172, R173). -/
inductive QuietStep (s : State) : State → Prop
  | answers (results : List Byte) : QuietStep s { s with results := results }
  | configures : QuietStep s (returnResult .ok { busConfigure s with busCfg := true })
  | arms (bytes : List Byte) (wr : Nat) (q : SeqState) (hcfg : s.busCfg = true) (hidle : s.seq = .idle)
      (hovr : s.ovr = false) (hbytes : bytes.length ≤ Config.capacity) (hpos : 0 < wr) (hwr : wr ≤ Config.capacity)
      (hq : q = .readArmed ∨ q = .writeArmed) :
      QuietStep s (returnResult .ok { s with
        snd := 0
        rcv := 0
        buf := Memory.writeRange s.buf 0 bytes
        wr := BitVec.ofNat 16 wr
        seq := q })

theorem exec_beginRead_quiet {addr : FlashAddr} {len : Cursor} {s t : State}
    (h : exec (.beginRead addr len) s = .next t) : QuietStep s t := by
  rcases exec_beginRead_next h with ⟨r, rfl⟩ | ⟨hcfg, hidle, hovr, hlen, rfl⟩
  · exact .answers _
  · simp only [Config.maxPayload] at hlen
    exact .arms _ _ _ hcfg hidle hovr (by simp [Config.capacity]) (by simp [Config.readHdr])
      (by simp only [Config.readHdr, Config.capacity]; omega) (.inl rfl)

theorem exec_beginWrite_quiet {addr : FlashAddr} {payload : List Byte} {s t : State}
    (h : exec (.beginWrite addr payload) s = .next t) : QuietStep s t := by
  rcases exec_beginWrite_next h with ⟨r, rfl⟩ | ⟨hcfg, hidle, hovr, hlen, rfl⟩
  · exact .answers _
  · simp only [Config.maxPayload] at hlen
    exact .arms _ _ _ hcfg hidle hovr (by simp only [writeFrame_length, Config.capacity]; omega)
      (by simp only [Config.writeHdr]; omega) (by simp only [Config.writeHdr, Config.capacity]; omega) (.inr rfl)

theorem exec_wire_quiet {i : Instr} {s t : State} (hw : i.channel = .wire) (h : exec i s = .next t) :
    QuietStep s t := by
  rw [exec_wire_next hw h]
  exact .answers s.results

/-- An instruction that answers is STEP, PUMP, ABORT or a quiet one. -/
theorem exec_next {i : Instr} {s t : State} (h : exec i s = .next t) :
    i = .step ∨ i = .pump ∨ i = .abort ∨ QuietStep s t := by
  cases i
  case step => exact .inl rfl
  case pump => exact .inr (.inl rfl)
  case abort => exact .inr (.inr (.inl rfl))
  all_goals refine .inr (.inr (.inr ?_))
  case initBus =>
    obtain ⟨-, rfl⟩ := exec_initBus_next h
    exact .configures
  case beginRead => exact exec_beginRead_quiet h
  case beginWrite => exact exec_beginWrite_quiet h
  case isIdle =>
    cases h
    exact .answers _
  all_goals exact exec_wire_quiet rfl h

theorem QuietStep.ie_eq {s t : State} (h : QuietStep s t) : t.ie = s.ie := by cases h <;> rfl

theorem QuietStep.ovr_eq {s t : State} (h : QuietStep s t) : t.ovr = s.ovr := by cases h <;> rfl

/-- Only an arm procedure changes `STATE` here, and the checks of R278 let it run only without overrun. -/
theorem QuietStep.seq_eq_of_ovr {s t : State} (h : QuietStep s t) (ho : s.ovr = true) : t.seq = s.seq := by
  cases h with
  | answers => rfl
  | configures => rfl
  | arms _ _ _ _ _ hovr => simp [ho] at hovr

/-- The fields outside the block that STEP alone writes: the ExternalStore, its cursor and the level of `HR` (R45, R46). -/
def SameEnv (s t : State) : Prop := t.store = s.store ∧ t.storeCur = s.storeCur ∧ t.hrPriority = s.hrPriority

theorem QuietStep.sameEnv {s t : State} (h : QuietStep s t) : SameEnv s t := by cases h <;> exact ⟨rfl, rfl, rfl⟩

/-! ### STEP -/

/-- Events that neither enable nor disable `HR`. -/
def Neutral (es : List Event) : Prop := ∀ e ∈ es, isEnable e = false ∧ isDisable e = false

theorem neutral_nil : Neutral [] := by simp [Neutral]

/-- What STEP can do to a state, whichever of the six it finds: answer and perhaps count a poll; leave an Armed state
with `HR` enabled (R176, R178); end the operation (R179 to R182); or give it up (R183). -/
inductive StepMove (s : State) : State → Prop
  | answers (results : List Byte) (count : Count32) : StepMove s { s with results := results, stallCnt := count }
  | enables (q : SeqState) (level : Nat) (es : List Event) (hq : q = .readWaiting ∨ q = .writeWaiting)
      (harmed : isArmed s = true) (hes : Neutral es)
      (hlevel : level = s.hrPriority ∨ (s.seq = .readArmed ∧ level = s.params.irqPriority)) :
      StepMove s (returnResult .ok { toWaiting q (irqEnable .sequencer s) with
        hrPriority := level
        history := (irqEnable .sequencer s).history ++ es })
  | ends (r : ResultCode) (store : Memory) (cur : Nat) (es : List Event) (hes : Neutral es)
      (hwait : isWaiting s = true) (hend : s.ovr = true ∨ isComplete s = true)
      (hwf : Memory.wf s.store → Memory.wf store)
      (hstore : (store = s.store ∧ cur = s.storeCur) ∨
        (s.seq = .readWaiting ∧ s.rcv = s.wr ∧ s.ovr = false)) :
      StepMove s (returnResult r (toIdle { s with store := store, storeCur := cur, history := s.history ++ es }))
  | stalls (count : Count32) (hwait : isWaiting s = true) (hovr : s.ovr = false) (hinc : isComplete s = false) :
      StepMove s (returnResult .stalled { irqDisable .sequencer { s with stallCnt := count } with seq := .stalled })

/-- The end of an operation that copies nothing: an overrun, or a completed write. -/
theorem StepMove.ends_without_copy {s : State} (r : ResultCode) (hwait : isWaiting s = true)
    (hend : s.ovr = true ∨ isComplete s = true) : StepMove s (returnResult r (toIdle s)) := by
  have h := StepMove.ends (s := s) r s.store s.storeCur [] neutral_nil hwait hend id (.inl ⟨rfl, rfl⟩)
  simpa using h

theorem stepIncomplete_move {s : State} (hwait : isWaiting s = true) (hovr : s.ovr = false)
    (hinc : isComplete s = false) : StepMove s (stepIncomplete s) := by
  rcases stepIncomplete_cases s with ⟨-, h⟩ | ⟨-, h⟩ <;> rw [h]
  · exact .stalls _ hwait hovr hinc
  · exact .answers _ _

theorem exec_step_move {s t : State} (h : exec .step s = .next t) : StepMove s t := by
  rcases exec_step_next h with ⟨-, rfl⟩ | ⟨-, rfl⟩ | ⟨hq, rfl⟩ | ⟨hq, rfl⟩ | ⟨hq, ho, rfl⟩ |
    ⟨hq, ho, hc, u, hcopy, rfl⟩ | ⟨hq, -, hc, rfl⟩ | ⟨hq, ho, hc, rfl⟩
  · exact .answers _ s.stallCnt
  · exact .answers _ s.stallCnt
  · exact .enables .readWaiting s.params.irqPriority [⟨.sequencer, .irqSetPriority .hr s.params.irqPriority⟩]
      (.inl rfl) (by simp [isArmed, hq]) (by simp [Neutral, isEnable, isDisable]) (.inr ⟨hq, rfl⟩)
  · have hmove := StepMove.enables (s := s) .writeWaiting s.hrPriority [] (.inr rfl) (by simp [isArmed, hq])
      neutral_nil (.inl rfl)
    simpa [stepWriteArmed, toWaiting] using hmove
  · exact .ends_without_copy _ (by simpa [isWaiting] using hq) (.inl ho)
  · obtain ⟨store, cur, es, rfl, hes, hwf⟩ := readDone_frame hcopy
    exact .ends .ok store cur es hes (by simp [isWaiting, hq]) (.inr hc) hwf
      (.inr ⟨hq, by simpa [isComplete] using hc, ho⟩)
  · exact .ends_without_copy _ (by simp [isWaiting, hq]) (.inr hc)
  · exact stepIncomplete_move (by simpa [isWaiting] using hq) ho hc

theorem StepMove.ovr_eq {s t : State} (h : StepMove s t) : t.ovr = s.ovr := by cases h <;> rfl

/-- STEP moves no cursor, and sends and receives nothing (R149). -/
theorem StepMove.cursors_eq {s t : State} (h : StepMove s t) :
    t.snd = s.snd ∧ t.rcv = s.rcv ∧ t.inflight = s.inflight := by
  cases h <;> exact ⟨rfl, rfl, rfl⟩

/-- STEP enters no Armed state. -/
theorem StepMove.seq_eq_of_armed {s t : State} (h : StepMove s t) (ht : isArmed t = true) : t.seq = s.seq := by
  cases h with
  | answers => rfl
  | enables q _ _ hq => rcases hq with rfl | rfl <;> simp [isArmed] at ht
  | ends => simp [isArmed] at ht
  | stalls => simp [isArmed] at ht

theorem StepMove.ie_cases {s t : State} (h : StepMove s t) :
    t.ie = s.ie ∨ (isArmed s = true ∧ t.ie = true) ∨ (t.seq = .stalled ∧ t.ie = false) := by
  cases h with
  | answers => exact .inl rfl
  | enables _ _ _ _ harmed => exact .inr (.inl ⟨harmed, rfl⟩)
  | ends => exact .inl rfl
  | stalls => exact .inr (.inr ⟨rfl, rfl⟩)

theorem StepMove.store_cases {s t : State} (h : StepMove s t) :
    (t.store = s.store ∧ t.storeCur = s.storeCur) ∨ (s.seq = .readWaiting ∧ s.rcv = s.wr ∧ s.ovr = false) := by
  cases h with
  | answers => exact .inl ⟨rfl, rfl⟩
  | enables => exact .inl ⟨rfl, rfl⟩
  | ends _ _ _ _ _ _ _ _ hstore => exact hstore
  | stalls => exact .inl ⟨rfl, rfl⟩

theorem StepMove.hrPriority_cases {s t : State} (h : StepMove s t) :
    t.hrPriority = s.hrPriority ∨ (s.seq = .readArmed ∧ t.hrPriority = s.params.irqPriority) := by
  cases h with
  | answers => exact .inl rfl
  | enables _ _ _ _ _ _ hlevel => exact hlevel
  | ends => exact .inl rfl
  | stalls => exact .inl rfl

/-! ### ABORT -/

/-- ABORT goes to Idle and may disable `HR`; the rest of what the claims below speak of stays (R228, R229). -/
theorem exec_abort_frame {s t : State} (h : exec .abort s = .next t) :
    t.seq = .idle ∧ t.ie = false ∧ t.ovr = s.ovr ∧ SameEnv s t := by
  rcases exec_abort_next h with ⟨-, rfl⟩ | ⟨hie, rfl⟩
  · exact ⟨rfl, rfl, rfl, rfl, rfl, rfl⟩
  · exact ⟨rfl, hie, rfl, rfl, rfl, rfl⟩

/-! ### PUMP -/

/-- The check after both loops writes `IE`, `OVR` and the history. -/
theorem pumpFinish_frame (overrun : Bool) (s : State) :
    ∃ ie ovr history, pumpFinish overrun s = { s with ie := ie, ovr := ovr, history := history } ∧
      (s.ovr = true → ovr = true) ∧ (ie = false → s.ie = true → s.rcv = s.wr ∨ ovr = true) := by
  rcases pumpFinish_cases overrun s with ⟨h, -⟩ | ⟨h, -, hc⟩ | ⟨h, -⟩ <;> rw [h]
  · exact ⟨_, _, _, rfl, fun _ => rfl, fun _ _ => .inr rfl⟩
  · exact ⟨_, _, _, rfl, id, fun _ _ => .inl hc⟩
  · exact ⟨s.ie, s.ovr, s.history, rfl, id, fun h₀ h₁ => by simp [h₁] at h₀⟩

/-- PUMP keeps `STATE` and the environment and clears no overrun; it never raises `IE`, and lowers it on completion or
overrun alone (R147, R153). -/
theorem exec_pump_frame {s t : State} (h : exec .pump s = .next t) :
    t.seq = s.seq ∧ SameEnv s t ∧ (s.ovr = true → t.ovr = true) ∧ (s.ie = false → t.ie = false) ∧
      (s.ie = true → t.ie = false → t.rcv = t.wr ∨ t.ovr = true) := by
  rcases exec_pump_next h with ⟨hie, rfl⟩ | ⟨hie, hbody⟩
  · exact ⟨rfl, ⟨rfl, rfl, rfl⟩, id, id, fun h₁ => by simp [hie] at h₁⟩
  · obtain ⟨_, _, _, _, _, _, _, _, overrun, rfl, -, -⟩ := pumpBody_frame hbody
    obtain ⟨_, _, _, hfin, hovr, hlow⟩ := pumpFinish_frame overrun _
    rw [hfin]
    exact ⟨rfl, ⟨rfl, rfl, rfl⟩, hovr, fun h₀ => by simp [hie] at h₀, fun h₁ h₀ => hlow h₀ h₁⟩

/-! ### The writers of `OVR`, `IE` and the environment -/

theorem exec_ovr_eq {i : Instr} {s t : State} (h : exec i s = .next t) (hi : i ≠ .pump) : t.ovr = s.ovr := by
  rcases exec_next h with rfl | rfl | rfl | hquiet
  · exact (exec_step_move h).ovr_eq
  · exact absurd rfl hi
  · obtain ⟨-, -, hovr, -⟩ := exec_abort_frame h
    exact hovr
  · exact hquiet.ovr_eq

theorem exec_keeps_overrun {i : Instr} {s t : State} (h : exec i s = .next t) (ho : s.ovr = true) : t.ovr = true := by
  by_cases hi : i = .pump
  · subst hi
    obtain ⟨-, -, hovr, -⟩ := exec_pump_frame h
    exact hovr ho
  · rw [exec_ovr_eq h hi, ho]

theorem exec_no_arming_of_ovr {i : Instr} {s t : State} (h : exec i s = .next t) (ho : s.ovr = true)
    (ht : isArmed t = true) : t.seq = s.seq := by
  rcases exec_next h with rfl | rfl | rfl | hquiet
  · exact (exec_step_move h).seq_eq_of_armed ht
  · obtain ⟨hseq, -⟩ := exec_pump_frame h
    exact hseq
  · obtain ⟨hseq, -⟩ := exec_abort_frame h
    simp [isArmed, hseq] at ht
  · exact hquiet.seq_eq_of_ovr ho

theorem beginWith_of_ovr {n : Nat} {arm : State → Except Fault State} {s : State} (hcfg : s.busCfg = true)
    (hidle : s.seq = .idle) (ho : s.ovr = true) : beginWith n arm s = .next (returnResult .bufferOverrun s) := by
  have hcheck : beginCheck n s = .refused .bufferOverrun := by simp [beginCheck, hcfg, hidle, ho]
  simp [beginWith, hcheck]

/-- Settles O15: PUMP is the only writer of `OVR` among the instructions, and the checks of R278 meet it before the
length of the operand. -/
theorem overrunIsStickyAndBlocksBegin : Obligations.OverrunIsStickyAndBlocksBegin := by
  refine ⟨rfl, fun _ _ => rfl, fun i s t h => ⟨fun h₀ h₁ => ?_, fun ho => ?_⟩, fun s hcfg hidle ho => ⟨?_, ?_⟩⟩
  · by_contra hi
    simp [exec_ovr_eq h hi, h₀] at h₁
  · exact ⟨exec_keeps_overrun h ho, exec_no_arming_of_ovr h ho⟩
  · intro addr len
    exact beginWith_of_ovr (arm := armRead addr len.toNat) hcfg hidle ho
  · intro addr payload
    exact beginWith_of_ovr (arm := armWrite addr payload) hcfg hidle ho

/-- Settles O45: of the instructions only STEP, PUMP and ABORT write `IE` at all. -/
theorem enableHasFourWriters : Obligations.EnableHasFourWriters := by
  intro i s t h
  rcases exec_next h with rfl | rfl | rfl | hquiet
  · rcases (exec_step_move h).ie_cases with hie | ⟨harmed, hie⟩ | ⟨hstalled, hie⟩
    · exact ⟨fun h₀ h₁ => by simp [hie, h₀] at h₁, fun h₁ h₀ => by simp [hie, h₁] at h₀⟩
    · simp [harmed, hie]
    · simp [hstalled, hie]
  · obtain ⟨-, -, -, hkeep, hlow⟩ := exec_pump_frame h
    exact ⟨fun h₀ h₁ => by simp [hkeep h₀] at h₁, fun h₁ h₀ => .inl ⟨rfl, hlow h₁ h₀⟩⟩
  · obtain ⟨-, hie, -⟩ := exec_abort_frame h
    simp [hie]
  · have hie := hquiet.ie_eq
    exact ⟨fun h₀ h₁ => by simp [hie, h₀] at h₁, fun h₁ h₀ => by simp [hie, h₁] at h₀⟩

theorem exec_sameEnv {i : Instr} {s t : State} (h : exec i s = .next t) (hi : i ≠ .step) : SameEnv s t := by
  rcases exec_next h with rfl | rfl | rfl | hquiet
  · exact absurd rfl hi
  · obtain ⟨-, henv, -⟩ := exec_pump_frame h
    exact henv
  · obtain ⟨-, -, -, henv⟩ := exec_abort_frame h
    exact henv
  · exact hquiet.sameEnv

/-- Settles O46: every instruction but STEP keeps the environment, and STEP writes it in the two cases named. -/
theorem environmentIsWrittenOnlyBySteps : Obligations.EnvironmentIsWrittenOnlyBySteps := by
  intro i s t h
  by_cases hi : i = .step
  · subst hi
    have hmove := exec_step_move h
    constructor
    · intro hne
      rcases hmove.store_cases with ⟨hstore, hcur⟩ | hread
      · simp [hstore, hcur] at hne
      · exact ⟨rfl, hread⟩
    · intro hne
      exact ⟨rfl, hmove.hrPriority_cases.resolve_left hne⟩
  · obtain ⟨hstore, hcur, hlevel⟩ := exec_sameEnv h hi
    simp [hstore, hcur, hlevel]

end Sys2Proof.Machine

/-! Every instruction, and so every step, keeps the invariants of R48, R50, R153, R179 and R212. -/

namespace Sys2Proof.Machine

/-! ### What the invariants say of `IE`, `STATE` and the history -/

/-- Outside the Waiting states `HR` is disabled. -/
theorem EnableOk.ie_of_not_waiting {s : State} (h : EnableOk s) (hw : isWaiting s = false) : s.ie = false := by
  by_contra hie
  obtain ⟨hwait, -⟩ := h (by simpa using hie)
  simp [hw] at hwait

/-- An operation that has overrun or is complete is disabled. -/
theorem EnableOk.ie_of_ended {s : State} (h : EnableOk s) (hend : s.ovr = true ∨ isComplete s = true) :
    s.ie = false := by
  by_contra hie
  obtain ⟨-, hlt, hovr⟩ := h (by simpa using hie)
  rcases hend with ho | hc
  · simp [ho] at hovr
  · have heq : s.rcv = s.wr := by simpa [isComplete] using hc
    simp [heq] at hlt

theorem isWaiting_idle {s : State} (h : s.seq = .idle) : isWaiting s = false := by simp [isWaiting, h]

theorem isWaiting_of_armed {s : State} (h : isArmed s = true) : isWaiting s = false := by
  rcases (by simpa [isArmed] using h : s.seq = .readArmed ∨ s.seq = .writeArmed) with hq | hq <;> simp [isWaiting, hq]

theorem seq_ne_idle_of_waiting {s : State} (h : isWaiting s = true) : s.seq ≠ .idle := by
  intro hq
  simp [isWaiting_idle hq] at h

theorem Neutral.countP_isEnable {es : List Event} (h : Neutral es) : es.countP isEnable = 0 :=
  List.countP_eq_zero.mpr fun e he => by simp [(h e he).1]

theorem Neutral.countP_isDisable {es : List Event} (h : Neutral es) : es.countP isDisable = 0 :=
  List.countP_eq_zero.mpr fun e he => by simp [(h e he).2]

theorem neutral_txEvents (bs : List Byte) : Neutral (txEvents bs) := by
  simp [Neutral, txEvents, isEnable, isDisable]

theorem neutral_rxEvents (n : Nat) : Neutral (rxEvents n) := by
  simp [Neutral, rxEvents, isEnable, isDisable]

/-- Neutral events do not disturb the ledger. -/
theorem LedgerOk.append_neutral {s t : State} {es : List Event} (h : LedgerOk s) (hes : Neutral es)
    (hhist : t.history = s.history ++ es) (hie : t.ie = s.ie) : LedgerOk t := by
  unfold LedgerOk at h ⊢
  rw [hhist, hie, List.countP_append, List.countP_append, hes.countP_isEnable, hes.countP_isDisable, h]
  simp

theorem LedgerOk.disable {s : State} (h : LedgerOk s) (hie : s.ie = true) (agent : Agent) :
    LedgerOk (irqDisable agent s) := by
  unfold LedgerOk at h ⊢
  simp [hie, isEnable, isDisable] at h ⊢
  omega

theorem LedgerOk.enable {s : State} (h : LedgerOk s) (hie : s.ie = false) (agent : Agent) :
    LedgerOk (irqEnable agent s) := by
  unfold LedgerOk at h ⊢
  simp [hie, isEnable, isDisable] at h ⊢
  omega

/-! ### Reset and the host's commands -/

/-- The invariants of a state at rest: Idle or Stalled with `HR` disabled. -/
theorem good_of_rest {s : State} (hq : s.seq = .idle ∨ s.seq = .stalled) (hie : s.ie = false) (hcur : CursorsOk s)
    (hboot : BootOk s) (hmem : MemoriesOk s) (hled : LedgerOk s) : Good s where
  cursors := hcur
  enable h := by simp [hie] at h
  armed h := by rcases hq with hq | hq <;> simp [isArmed, hq] at h
  waiting h := by rcases hq with hq | hq <;> simp [isWaiting, hq] at h
  boot := hboot
  memories := hmem
  ledger := hled

theorem hardReset_good {s : State} (h : Good s) (buf : List Byte) : Good (hardReset buf s) := by
  obtain ⟨-, -, hstore⟩ := h.memories
  refine good_of_rest (.inl rfl) rfl (by simp [CursorsOk]) (by simp [BootOk]) ⟨?_, ?_, hstore⟩ (by simp [LedgerOk])
  · exact Memory.ofBytes_wf _ _
  · intro c hc
    obtain ⟨-, hlt⟩ := Memory.ofBytes_bounds _ _ c hc
    simp only [List.length_take] at hlt
    omega

theorem QuietStep.good {s t : State} (hmove : QuietStep s t) (h : Good s) : Good t := by
  cases hmove with
  | answers => exact ⟨h.cursors, h.enable, h.armed, h.waiting, h.boot, h.memories, h.ledger⟩
  | configures =>
    have hled := h.ledger.append_neutral (t := returnResult .ok { busConfigure s with busCfg := true })
      (es := [⟨.sequencer, .busConfigure⟩]) (by simp [Neutral, isEnable, isDisable]) rfl rfl
    exact ⟨h.cursors, h.enable, h.armed, h.waiting, fun _ => rfl, h.memories, hled⟩
  | arms bytes wr q hcfg hidle hovr hbytes hpos hwr hq =>
    have hie : s.ie = false := h.enable.ie_of_not_waiting (isWaiting_idle hidle)
    have hwrNat : (BitVec.ofNat 16 wr).toNat = wr := cursor_toNat_ofNat hwr
    obtain ⟨hbuf, hin, hstore⟩ := h.memories
    exact {
      cursors := by simp [CursorsOk, hwrNat, hwr]
      enable := fun h₁ => by simp [hie] at h₁
      armed := fun _ => ⟨rfl, rfl, by simpa only [returnResult_wr, hwrNat] using hpos, hovr⟩
      waiting := fun h₁ => by rcases hq with rfl | rfl <;> simp [isWaiting] at h₁
      boot := fun _ => hcfg
      memories := ⟨Memory.writeRange_wf hbuf _ _, Memory.writeRange_within hin _ (by omega), hstore⟩
      ledger := h.ledger }

theorem StepMove.good {s t : State} (hmove : StepMove s t) (h : Good s) : Good t := by
  cases hmove with
  | answers => exact ⟨h.cursors, h.enable, h.armed, h.waiting, h.boot, h.memories, h.ledger⟩
  | enables q level es hq harmed hes =>
    obtain ⟨-, hrcv, hpos, hovr⟩ := h.armed harmed
    have hie : s.ie = false := h.enable.ie_of_not_waiting (isWaiting_of_armed harmed)
    have hne : s.seq ≠ .idle := fun hidle => by simp [isArmed, hidle] at harmed
    exact {
      cursors := h.cursors
      enable := fun _ => ⟨by simpa [isWaiting] using hq, by simpa [hrcv] using hpos, hovr⟩
      armed := fun h₁ => by rcases hq with rfl | rfl <;> simp [isArmed] at h₁
      waiting := fun _ _ _ => rfl
      boot := fun _ => h.boot hne
      memories := h.memories
      ledger := (h.ledger.enable hie .sequencer).append_neutral hes rfl rfl }
  | ends r store cur es hes hwait hend hwf =>
    obtain ⟨hbuf, hin, hstore⟩ := h.memories
    exact good_of_rest (.inl rfl) (h.enable.ie_of_ended hend) h.cursors (fun hne => absurd rfl hne)
      ⟨hbuf, hin, hwf hstore⟩ (h.ledger.append_neutral hes rfl rfl)
  | stalls count hwait hovr hinc =>
    have hie : s.ie = true := h.waiting hwait hovr hinc
    exact good_of_rest (.inr rfl) rfl h.cursors (fun _ => h.boot (seq_ne_idle_of_waiting hwait)) h.memories
      (h.ledger.disable hie .sequencer)

theorem exec_abort_good {s t : State} (h : Good s) (hexec : exec .abort s = .next t) : Good t := by
  rcases exec_abort_next hexec with ⟨hie, rfl⟩ | ⟨hie, rfl⟩
  · exact good_of_rest (.inl rfl) rfl h.cursors (fun hne => absurd rfl hne) h.memories (h.ledger.disable hie .sequencer)
  · exact good_of_rest (.inl rfl) hie h.cursors (fun hne => absurd rfl hne) h.memories h.ledger

/-! ### The loops of PUMP and the check after them -/

/-- The state between both loops of an invocation and the check after them, from cursors that keep R48. -/
def pumpLoops (s : State) : State :=
  { s with
    snd := BitVec.ofNat 16 (s.snd.toNat + sentCount s)
    rcv := BitVec.ofNat 16 (s.rcv.toNat + rcvdCount s)
    buf := Memory.writeRange s.buf s.rcv.toNat (s.rxOffer.take (rcvdCount s))
    inflight := s.inflight + sentCount s - rcvdCount s
    txFree := s.txFree - sentCount s
    rxOffer := s.rxOffer.drop (rcvdCount s)
    history := s.history ++ txEvents (Memory.readRange s.buf s.snd.toNat (sentCount s)) ++ rxEvents (rcvdCount s) }

/-- PUMP while `HR` is enabled: both loops, then the check. -/
theorem exec_pump_loops {s t : State} (hcur : CursorsOk s) (hie : s.ie = true) (h : exec .pump s = .next t) :
    t = pumpFinish (overrunNow s) (pumpLoops s) := by
  rcases exec_pump_next h with ⟨hie₀, -⟩ | ⟨-, hbody⟩
  · simp [hie] at hie₀
  · rw [pumpBody_ok s hcur] at hbody
    cases hbody
    rfl

theorem sentCount_le (s : State) : sentCount s ≤ s.wr.toNat - s.snd.toNat := by unfold sentCount; omega

theorem rcvdCount_le (s : State) : rcvdCount s ≤ s.wr.toNat - s.rcv.toNat := by unfold rcvdCount; omega

theorem rcvdCount_le_offer (s : State) : rcvdCount s ≤ s.rxOffer.length := by unfold rcvdCount; omega

theorem pumpLoops_snd {s : State} (h : CursorsOk s) : (pumpLoops s).snd.toNat = s.snd.toNat + sentCount s := by
  obtain ⟨hsnd, hwr, -⟩ := h
  have := sentCount_le s
  exact cursor_toNat_ofNat (by omega)

theorem pumpLoops_rcv {s : State} (h : CursorsOk s) : (pumpLoops s).rcv.toNat = s.rcv.toNat + rcvdCount s := by
  obtain ⟨-, hwr, hrcv⟩ := h
  have := rcvdCount_le s
  exact cursor_toNat_ofNat (by omega)

theorem pumpLoops_cursors {s : State} (h : CursorsOk s) : CursorsOk (pumpLoops s) := by
  have hsent := sentCount_le s
  have hrcvd := rcvdCount_le s
  have hsnd := pumpLoops_snd h
  have hrcv := pumpLoops_rcv h
  obtain ⟨h₁, h₂, h₃⟩ := h
  have hwr : (pumpLoops s).wr = s.wr := rfl
  refine ⟨?_, h₂, ?_⟩ <;> rw [hwr] <;> omega

/-- The received bytes land below `WR`, so inside the buffer. -/
theorem pumpLoops_memories {s : State} (hcur : CursorsOk s) (h : MemoriesOk s) : MemoriesOk (pumpLoops s) := by
  obtain ⟨hbuf, hin, hstore⟩ := h
  obtain ⟨-, hwr, hrcv⟩ := hcur
  have hle := rcvdCount_le s
  refine ⟨Memory.writeRange_wf hbuf _ _, Memory.writeRange_within hin _ ?_, hstore⟩
  simp only [List.length_take]
  omega

theorem pumpLoops_ledger {s : State} (h : LedgerOk s) : LedgerOk (pumpLoops s) := by
  refine h.append_neutral (es := txEvents _ ++ rxEvents _) ?_ (List.append_assoc _ _ _) rfl
  intro e he
  rcases List.mem_append.mp he with he | he
  · exact neutral_txEvents _ e he
  · exact neutral_rxEvents _ e he

/-- Both loops leave an enabled transfer whose cursors keep R48; the check after them restores the strict bound of R50
by disabling a transfer that is complete or has overrun. -/
theorem pumpFinish_good {u : State} (overrun : Bool) (hcur : CursorsOk u) (hwait : isWaiting u = true)
    (hie : u.ie = true) (hovr : u.ovr = false) (hboot : BootOk u) (hmem : MemoriesOk u) (hled : LedgerOk u) :
    Good (pumpFinish overrun u) := by
  have harmed : ArmedOk u := fun ha => by simp [isWaiting_of_armed ha] at hwait
  rcases pumpFinish_cases overrun u with ⟨h, -⟩ | ⟨h, -, hc⟩ | ⟨h, -, hc⟩ <;> rw [h]
  · exact {
      cursors := hcur
      enable := fun h₁ => by simp at h₁
      armed := fun ha => by simp [isWaiting_of_armed (s := u) ha] at hwait
      waiting := fun _ h₀ => by simp at h₀
      boot := hboot
      memories := hmem
      ledger := hled.disable hie .pump }
  · exact {
      cursors := hcur
      enable := fun h₁ => by simp at h₁
      armed := harmed
      waiting := fun _ _ hinc => by simp [isComplete, hc] at hinc
      boot := hboot
      memories := hmem
      ledger := hled.disable hie .pump }
  · have hne : u.rcv.toNat ≠ u.wr.toNat := fun heq => hc (BitVec.eq_of_toNat_eq heq)
    have ⟨_, _, hle⟩ := hcur
    exact {
      cursors := hcur
      enable := fun _ => ⟨hwait, lt_of_le_of_ne hle hne, hovr⟩
      armed := harmed
      waiting := fun _ _ _ => hie
      boot := hboot
      memories := hmem
      ledger := hled }

theorem exec_pump_good {s t : State} (h : Good s) (hexec : exec .pump s = .next t) : Good t := by
  cases hie : s.ie with
  | false =>
    rcases exec_pump_next hexec with ⟨-, rfl⟩ | ⟨hie₁, -⟩
    · exact h
    · simp [hie] at hie₁
  | true =>
    obtain ⟨hwait, -, hovr⟩ := h.enable hie
    rw [exec_pump_loops h.cursors hie hexec]
    exact pumpFinish_good _ (pumpLoops_cursors h.cursors) hwait hie hovr h.boot
      (pumpLoops_memories h.cursors h.memories) (pumpLoops_ledger h.ledger)

/-! ### Every step -/

theorem exec_good {i : Instr} {s t : State} (h : Good s) (hexec : exec i s = .next t) : Good t := by
  rcases exec_next hexec with rfl | rfl | rfl | hquiet
  · exact (exec_step_move hexec).good h
  · exact exec_pump_good h hexec
  · exact exec_abort_good h hexec
  · exact hquiet.good h

/-- The inputs and draws are outside the invariants. -/
theorem Good.with_inputs {s : State} (h : Good s) (moves : List Move) (host : List Byte) (txFree : Nat)
    (rxOffer : List Byte) : Good { s with moves := moves, host := host, txFree := txFree, rxOffer := rxOffer } :=
  ⟨h.cursors, h.enable, h.armed, h.waiting, h.boot, h.memories, h.ledger⟩

/-- Settles O35: the fetch only moves the inputs on or resets the block, and every instruction keeps the invariants. -/
theorem everyStepKeepsGood : Obligations.EveryStepKeepsGood := by
  intro s t h hstep
  unfold step at hstep
  rcases fetch_cases s with ⟨i, m, c, k, r, hf⟩ | ⟨m, hf⟩ | ⟨l, m, hf⟩ | ⟨r, hf⟩ <;> rw [hf] at hstep
  · exact exec_good (h.with_inputs m c k r) hstep
  · cases hstep
    exact h.with_inputs m s.host s.txFree s.rxOffer
  · cases hstep
    exact hardReset_good (h.with_inputs m s.host s.txFree s.rxOffer) l
  · cases hstep

end Sys2Proof.Machine

/-! The full-duplex account of R49: on a bus that keeps BD1 every byte sent is received or in flight. -/

namespace Sys2Proof.Machine

theorem duplexOk_of_disabled {s : State} (h : s.ie = false) : DuplexOk s := fun h₁ => by simp [h] at h₁

/-- The begin commands move the cursors, but find `HR` disabled. -/
theorem QuietStep.duplexOk {s t : State} (hmove : QuietStep s t) (h : Good s) (hd : DuplexOk s) : DuplexOk t := by
  cases hmove with
  | answers => exact hd
  | configures => exact hd
  | arms _ _ _ _ hidle => exact duplexOk_of_disabled (h.enable.ie_of_not_waiting (isWaiting_idle hidle))

/-- The enabling STEP finds both cursors at 0, so the account opens balanced when nothing is in flight. -/
theorem StepMove.duplexOk {s t : State} (hmove : StepMove s t) (h : Good s) (hd : DuplexOk s)
    (hempty : isArmed s = true → s.inflight = 0) : DuplexOk t := by
  obtain ⟨hsnd, hrcv, hinf⟩ := hmove.cursors_eq
  intro hie
  rw [hsnd, hrcv, hinf]
  rcases hmove.ie_cases with hsame | ⟨harmed, -⟩ | ⟨-, hoff⟩
  · exact hd (hsame ▸ hie)
  · obtain ⟨hs, hr, -⟩ := h.armed harmed
    simp [hs, hr, hempty harmed]
  · simp [hoff] at hie

/-- Under BD1 no more bytes arrive than were sent or in flight, so both loops keep the account. -/
theorem pumpLoops_account {s : State} (hcur : CursorsOk s) (hbal : s.snd.toNat = s.rcv.toNat + s.inflight)
    (hduty : BusDuty s) : (pumpLoops s).snd.toNat = (pumpLoops s).rcv.toNat + (pumpLoops s).inflight := by
  have hle := rcvdCount_le_offer s
  have hinf : (pumpLoops s).inflight = s.inflight + sentCount s - rcvdCount s := rfl
  unfold BusDuty at hduty
  rw [pumpLoops_snd hcur, pumpLoops_rcv hcur, hinf]
  omega

/-- An enabled invocation on a dutiful bus keeps R48 and the account. -/
theorem exec_pump_account {s t : State} (hcur : CursorsOk s) (hie : s.ie = true) (hd : DuplexOk s)
    (hduty : BusDuty s) (hexec : exec .pump s = .next t) :
    CursorsOk t ∧ t.snd.toNat = t.rcv.toNat + t.inflight := by
  obtain ⟨_, _, _, hfin, -⟩ := pumpFinish_frame (overrunNow s) (pumpLoops s)
  rw [exec_pump_loops hcur hie hexec, hfin]
  exact ⟨pumpLoops_cursors hcur, pumpLoops_account hcur (hd hie) hduty⟩

theorem exec_duplexOk {i : Instr} {s t : State} (h : Good s) (hd : DuplexOk s)
    (hempty : i = .step → isArmed s = true → s.inflight = 0) (hduty : i = .pump → BusDuty s)
    (hexec : exec i s = .next t) : DuplexOk t := by
  rcases exec_next hexec with rfl | rfl | rfl | hquiet
  · exact (exec_step_move hexec).duplexOk h hd (hempty rfl)
  · cases hie : s.ie with
    | false =>
      obtain ⟨-, -, -, hkeep, -⟩ := exec_pump_frame hexec
      exact duplexOk_of_disabled (hkeep hie)
    | true =>
      obtain ⟨-, hbal⟩ := exec_pump_account h.cursors hie hd (hduty rfl) hexec
      exact fun _ => hbal
  · obtain ⟨-, hie, -⟩ := exec_abort_frame hexec
    exact duplexOk_of_disabled hie
  · exact hquiet.duplexOk h hd

/-- The account and R48 give the order of the cursors. -/
theorem cursor_order {s : State} (hcur : CursorsOk s) (hbal : s.snd.toNat = s.rcv.toNat + s.inflight) :
    s.rcv.toNat ≤ s.snd.toNat ∧ (s.rcv = s.wr → s.snd = s.wr) := by
  obtain ⟨hsnd, -, -⟩ := hcur
  refine ⟨by omega, fun hc => BitVec.eq_of_toNat_eq ?_⟩
  rw [hc] at hbal
  omega

/-- Settles O39: every instruction keeps the account, and after an invocation it orders the cursors. -/
theorem cursorOrderUnderTheDuty : Obligations.CursorOrderUnderTheDuty := by
  intro i s t h hd hempty hduty hexec
  refine ⟨exec_duplexOk h hd hempty hduty hexec, ?_⟩
  rintro rfl hie
  obtain ⟨hcur, hbal⟩ := exec_pump_account h.cursors hie hd (hduty rfl) hexec
  exact cursor_order hcur hbal

end Sys2Proof.Machine

/-! The address field of an armed frame: the caller's address within one page of 1024 bytes (R76, R103). -/

namespace Sys2Proof.Machine

/-- A field of 24 bits masked to its low ten is the field modulo 1024. -/
theorem toNat_and_pageMask (addr : FlashAddr) : (addr &&& 0x3FF#24).toNat = addr.toNat % 1024 := by
  rw [BitVec.toNat_and]
  exact Nat.and_two_pow_sub_one_eq_mod addr.toNat 10

/-- The bytes of an address below 1024: high byte 0, middle byte at most 3, and the low two spell the address. -/
theorem addrBytes_of_lt_page {a : FlashAddr} (h : a.toNat < 1024) :
    a.extractLsb' 16 8 = 0x00#8 ∧ (a.extractLsb' 8 8).toNat ≤ 3 ∧
      (a.extractLsb' 8 8).toNat * 256 + (a.extractLsb' 0 8).toNat = a.toNat := by
  refine ⟨BitVec.eq_of_toNat_eq ?_, ?_, ?_⟩ <;>
    simp only [BitVec.extractLsb'_toNat, BitVec.toNat_ofNat, Nat.shiftRight_eq_div_pow] <;> omega

/-- Bytes 1 to 3 of a buffer into which a frame has been written are the frame's address field. -/
theorem readRange_frame_address {m : Memory} (hm : Memory.wf m) (op : Byte) (a : FlashAddr) (rest : List Byte) :
    Memory.readRange (Memory.writeRange m 0 (op :: addrBytes a ++ rest)) 1 3 = addrBytes a := by
  simp [Memory.readRange, Memory.read_writeRange hm, addrBytes]

/-- An address field masked as R76 says spells the caller's address within the page. -/
theorem address_in_page {m : Memory} {addr : FlashAddr}
    (h : Memory.readRange m 1 3 = addrBytes (addr &&& 0x3FF#24)) :
    Memory.read m 1 = 0x00#8 ∧ (Memory.read m 2).toNat ≤ 3 ∧
      (Memory.read m 2).toNat * 256 + (Memory.read m 3).toNat = addr.toNat % 1024 := by
  have hpage := toNat_and_pageMask addr
  simp only [Memory.readRange, addrBytes, List.cons.injEq, and_true] at h
  obtain ⟨h₁, h₂, h₃⟩ := h
  rw [h₁, h₂, h₃, ← hpage]
  exact addrBytes_of_lt_page (by omega)

/-- Settles O17: a begin command that leaves Idle has armed, and both frames carry the masked address. -/
theorem framesStayInThePage : Obligations.FramesStayInThePage := by
  rintro addr s t hwf hidle hleft (⟨len, hexec⟩ | ⟨payload, hexec⟩)
  · rcases exec_beginRead_next hexec with ⟨r, rfl⟩ | ⟨-, -, -, -, rfl⟩
    · exact absurd hidle hleft
    · exact address_in_page (readRange_frame_address hwf opRead _ _)
  · rcases exec_beginWrite_next hexec with ⟨r, rfl⟩ | ⟨-, -, -, -, rfl⟩
    · exact absurd hidle hleft
    · exact address_in_page (readRange_frame_address hwf opWrite _ _)

end Sys2Proof.Machine

/-! What an invocation of PUMP leaves in the buffer: below `RCV` the bytes received so far, from `SND` upwards the part
of the frame not yet sent (R75). -/

namespace Sys2Proof.Machine

/-! ### Ranges -/

/-- A range reads as a list when each of its addresses does. -/
theorem Memory.readRange_eq {m : Memory} {a n : Nat} {bs : List Byte} (hlen : bs.length = n)
    (h : ∀ k (hk : k < bs.length), Memory.read m (a + k) = bs[k]) : Memory.readRange m a n = bs :=
  List.ext_getElem (by simp [hlen]) fun k hk hk' => by rw [Memory.readRange_getElem m a n k hk, h k hk']

/-- A list written is read back. -/
theorem Memory.readRange_writeRange_same {m : Memory} (hm : Memory.wf m) (a : Nat) {n : Nat} {bs : List Byte}
    (hlen : bs.length = n) : Memory.readRange (Memory.writeRange m a bs) a n = bs :=
  Memory.readRange_eq hlen fun k hk => by simp [Memory.read_writeRange hm, hk]

/-- The range below a list written is as before. -/
theorem Memory.readRange_writeRange_below {m : Memory} (hm : Memory.wf m) {a b n : Nat} (hn : a + n ≤ b)
    (bs : List Byte) : Memory.readRange (Memory.writeRange m b bs) a n = Memory.readRange m a n :=
  Memory.readRange_eq (Memory.readRange_length m a n) fun k hk => by
    have hlt : k < n := by simpa using hk
    rw [Memory.readRange_getElem m a n k hk, Memory.read_writeRange hm, dif_neg (by omega)]

/-! ### The check after both loops -/

@[simp] theorem pumpFinish_wr (overrun : Bool) (s : State) : (pumpFinish overrun s).wr = s.wr := by
  obtain ⟨_, _, _, h, -⟩ := pumpFinish_frame overrun s
  rw [h]

@[simp] theorem pumpFinish_snd (overrun : Bool) (s : State) : (pumpFinish overrun s).snd = s.snd := by
  obtain ⟨_, _, _, h, -⟩ := pumpFinish_frame overrun s
  rw [h]

@[simp] theorem pumpFinish_rcv (overrun : Bool) (s : State) : (pumpFinish overrun s).rcv = s.rcv := by
  obtain ⟨_, _, _, h, -⟩ := pumpFinish_frame overrun s
  rw [h]

@[simp] theorem pumpFinish_buf (overrun : Bool) (s : State) : (pumpFinish overrun s).buf = s.buf := by
  obtain ⟨_, _, _, h, -⟩ := pumpFinish_frame overrun s
  rw [h]

/-! ### Received bytes -/

/-- Settles O34: the bytes taken are written right above those received before, and the check after the loops touches
neither the buffer nor `RCV`. -/
theorem receivedBytesAccumulate : Obligations.ReceivedBytesAccumulate := by
  intro s t hcur hwf hie hexec
  have hlen : (s.rxOffer.take (rcvdCount s)).length = rcvdCount s :=
    List.length_take_of_le (rcvdCount_le_offer s)
  have hold := Memory.readRange_writeRange_below hwf (Nat.zero_add s.rcv.toNat).le (s.rxOffer.take (rcvdCount s))
  have hnew := Memory.readRange_writeRange_same hwf s.rcv.toNat hlen
  rw [exec_pump_loops hcur hie hexec, pumpFinish_buf, pumpFinish_rcv, pumpLoops_rcv hcur, Memory.readRange_append,
    Nat.zero_add]
  exact congrArg₂ _ hold hnew

/-! ### Sent bytes -/

theorem sentBytes_append (es fs : List Event) : sentBytes (es ++ fs) = sentBytes es ++ sentBytes fs := by
  induction es with
  | nil => rfl
  | cons e es ih =>
    obtain ⟨agent, prim⟩ := e
    cases prim <;> simp [sentBytes, ih]

@[simp] theorem sentBytes_txEvents (bs : List Byte) : sentBytes (txEvents bs) = bs := by
  induction bs with
  | nil => rfl
  | cons b bs ih => exact congrArg (b :: ·) ih

@[simp] theorem sentBytes_rxEvents (n : Nat) : sentBytes (rxEvents n) = [] := by
  induction n with
  | zero => rfl
  | succ n ih => exact ih

/-- The check after both loops sends nothing. -/
theorem pumpFinish_sentBytes (overrun : Bool) (s : State) :
    sentBytes (pumpFinish overrun s).history = sentBytes s.history := by
  rcases pumpFinish_cases overrun s with ⟨h, -⟩ | ⟨h, -⟩ | ⟨h, -⟩ <;> rw [h] <;> simp [sentBytes_append, sentBytes]

/-- An invocation sends the bytes that stand from `SND` upwards when it begins (R143). -/
theorem pumpLoops_sentBytes (s : State) :
    sentBytes (pumpLoops s).history = sentBytes s.history ++ Memory.readRange s.buf s.snd.toNat (sentCount s) := by
  simp [pumpLoops, sentBytes_append]

/-- While the receive cursor does not pass the transmit cursor, no received byte lands on an unsent one. -/
theorem pumpLoops_unsent {s : State} (hwf : Memory.wf s.buf) (hcur : CursorsOk s)
    (horder : (pumpLoops s).rcv.toNat ≤ (pumpLoops s).snd.toNat) {a : Nat} (ha : (pumpLoops s).snd.toNat ≤ a) :
    Memory.read (pumpLoops s).buf a = Memory.read s.buf a := by
  rw [pumpLoops_rcv hcur] at horder
  exact (read_received s hwf a).trans (if_neg (by omega))

/-- A range of a buffer that holds a frame is a part of the frame. -/
theorem Memory.readRange_of_holds {m : Memory} {F : List Byte} {i n : Nat} (hn : i + n ≤ F.length)
    (h : ∀ a, i ≤ a → a < F.length → Memory.read m a = F.getD a 0x00#8) :
    Memory.readRange m i n = (F.drop i).take n :=
  Memory.readRange_eq (by simp; omega) fun k hk => by
    have hlt : k < n := by rw [List.length_take] at hk; omega
    have hin : i + k < F.length := by omega
    rw [h (i + k) (by omega) hin]
    simp [hin]

/-- Settles O41: the bytes sent are read before any is received, and under BD1 the account of R49 keeps `RCV` at or
below `SND`, so the unsent part of the frame is not overwritten. -/
theorem frameGoesOutUnspoilt : Obligations.FrameGoesOutUnspoilt := by
  intro F s t h hd hduty hie hF hholds hexec
  obtain ⟨hwf, -, -⟩ := h.memories
  obtain ⟨hsnd, -, -⟩ := h.cursors
  have hle := sentCount_le s
  have hmoved := pumpLoops_snd h.cursors
  obtain ⟨horder, -⟩ := cursor_order (pumpLoops_cursors h.cursors) (pumpLoops_account h.cursors (hd hie) hduty)
  rw [exec_pump_loops h.cursors hie hexec, pumpFinish_sentBytes, pumpFinish_buf, pumpFinish_snd, pumpFinish_wr]
  constructor
  · have hpart := Memory.readRange_of_holds (n := sentCount s) (by omega) (hF ▸ hholds)
    rw [pumpLoops_sentBytes, hpart, hmoved, Nat.add_sub_cancel_left]
  · intro a hlo hhi
    rw [pumpLoops_unsent hwf h.cursors horder hlo]
    exact hholds a (by omega) hhi

end Sys2Proof.Machine

/-! Decoding and encoding undo each other on every channel, and on the host's turn the decoded command is the one that
runs (R105, R107 to R111, R115, R120; log entries 1 and 6). -/

namespace Sys2Proof

/-! ### What a descriptor made of its fields decodes to -/

theorem decodeDescriptor_beginRead (addr : FlashAddr) (len : Cursor) (stream : List Byte) :
    decodeDescriptor (mkDescriptor 0x2#4 addr len) stream = .ok (.beginRead addr len, stream) := by
  simp [decodeDescriptor]

theorem decodeDescriptor_beginWrite (addr : FlashAddr) {len : Cursor} {stream payload rest : List Byte}
    (h : takeBytes len.toNat stream = some (payload, rest)) :
    decodeDescriptor (mkDescriptor 0x3#4 addr len) stream = .ok (.beginWrite addr payload, rest) := by
  simp [decodeDescriptor, h]

/-- The commands without operands: every field but `CMD` is 0 (R107). -/
theorem decodeDescriptor_bare (stream : List Byte) :
    decodeDescriptor (mkDescriptor 0x1#4 0 0) stream = .ok (.initBus, stream) ∧
    decodeDescriptor (mkDescriptor 0x4#4 0 0) stream = .ok (.step, stream) ∧
    decodeDescriptor (mkDescriptor 0x5#4 0 0) stream = .ok (.isIdle, stream) ∧
    decodeDescriptor (mkDescriptor 0x6#4 0 0) stream = .ok (.abort, stream) := by
  simp [decodeDescriptor]

/-- The payload length a well-formed BEGIN_WRITE announces is the one its payload has (R107, R117). -/
theorem takeBytes_payload {payload : List Byte} (rest : List Byte) (h : payload.length < 65536) :
    takeBytes (BitVec.ofNat 16 payload.length).toNat (payload ++ rest) = some (payload, rest) := by
  rw [BitVec.toNat_ofNat, Nat.mod_eq_of_lt h, takeBytes_append]

/-- Settles O2: a host command by the descriptor its encoding starts with, a frame opcode by its byte, the PUMP event
with no bits at all. -/
theorem decodeUndoesEncode : Obligations.DecodeUndoesEncode := by
  intro i rest hwf
  obtain ⟨hinit, hstep, hidle, habort⟩ := decodeDescriptor_bare rest
  cases i with
  | initBus => exact (decodeCommand_descriptorBytes _ rest).trans hinit
  | step => exact (decodeCommand_descriptorBytes _ rest).trans hstep
  | isIdle => exact (decodeCommand_descriptorBytes _ rest).trans hidle
  | abort => exact (decodeCommand_descriptorBytes _ rest).trans habort
  | beginRead addr len =>
    exact (decodeCommand_descriptorBytes _ rest).trans (decodeDescriptor_beginRead addr len rest)
  | beginWrite addr payload =>
    have htake := takeBytes_payload rest (of_decide_eq_true hwf)
    simp only [encode, List.append_assoc]
    exact (decodeCommand_descriptorBytes _ _).trans (decodeDescriptor_beginWrite addr htake)
  | pump | flashStatus | flashRead | flashId | flashWrite | flashErase | flashWriteEnable | flashBuffer2WriteEnable
  | flashBuffer2Write | flashBuffer2Commit => rfl

/-! ### What decoded bytes were -/

/-- Eight bytes are the bytes of the descriptor they spell. -/
theorem descriptorBytes_ofNat_leNat {bs : List Byte} (h : bs.length = 8) :
    descriptorBytes (BitVec.ofNat 64 (leNat bs)) = bs := by
  have hlt : leNat bs < 2 ^ 64 := by simpa [h] using leNat_lt bs
  rw [descriptorBytes, BitVec.toNat_ofNat, Nat.mod_eq_of_lt hlt, ← h, leBytes_leNat]

/-- A host stream that decodes starts with a descriptor, and it is the descriptor that decodes. -/
theorem decodeCommand_ok {bs : List Byte} {r : Instr × List Byte} (h : decodeCommand bs = .ok r) :
    ∃ d stream, bs = descriptorBytes d ++ stream ∧ decodeDescriptor d stream = .ok r := by
  unfold decodeCommand at h
  split at h
  · next taken stream htake =>
    obtain ⟨rfl, hlen⟩ := takeBytes_some htake
    exact ⟨_, stream, by rw [descriptorBytes_ofNat_leNat hlen], h⟩
  · cases h

/-- The bytes `bs` are an instruction of the channel `c`, in its own encoding, followed by `rest`. -/
def Spells (c : Channel) (bs : List Byte) (i : Instr) (rest : List Byte) : Prop :=
  i.wf = true ∧ i.channel = c ∧ bs = encode i ++ rest

/-- A BEGIN_WRITE's payload has the length its descriptor announces, so its encoding announces it again. -/
theorem spells_beginWrite {addr : FlashAddr} {len : Cursor} {stream payload rest : List Byte}
    (h : takeBytes len.toNat stream = some (payload, rest)) :
    Spells .host (descriptorBytes (mkDescriptor 0x3#4 addr len) ++ stream) (.beginWrite addr payload) rest := by
  obtain ⟨rfl, hlen⟩ := takeBytes_some h
  refine ⟨?_, rfl, ?_⟩
  · simpa [Instr.wf, hlen] using len.isLt
  · simp [encode, hlen]

/-- A descriptor that decodes has reserved fields 0, and unused operand fields 0, so it is the one the encoder makes
(R108, R115). -/
theorem decodeDescriptor_spells {d : Descriptor} {stream rest : List Byte} {i : Instr}
    (h : decodeDescriptor d stream = .ok (i, rest)) : Spells .host (descriptorBytes d ++ stream) i rest := by
  have hcmd {n : Nat} (hn : (cmdField d).toNat = n) : cmdField d = BitVec.ofNat 4 n := by simp [← hn]
  unfold decodeDescriptor at h
  split at h
  · cases h
  · next hrsv =>
    obtain ⟨hrsv0, hrsv1⟩ := not_or.mp hrsv
    rw [← mkDescriptor_fields (not_not.mp hrsv0) (not_not.mp hrsv1)]
    split at h
    · next hn => cases h; rw [hcmd hn]; exact ⟨rfl, rfl, rfl⟩
    · next hn =>
      split at h
      · next htake => cases h; rw [hcmd hn]; exact spells_beginWrite htake
      · cases h
    · split at h
      · cases h
      · next hunused =>
        obtain ⟨haddr, hlen⟩ := not_or.mp hunused
        rw [not_not.mp haddr, not_not.mp hlen]
        split at h
        case h_5 => cases h
        all_goals
          next hn => cases h; rw [hcmd hn]; exact ⟨rfl, rfl, rfl⟩

/-- A frame byte 0 that names an opcode is the opcode's one byte (R105, R250). -/
theorem decodeFrameByte_spells {b : Byte} {i : Instr} (rest : List Byte) (h : decodeFrameByte b = some i) :
    Spells .wire (b :: rest) i rest := by
  have hb {n : Nat} (hn : b.toNat = n) : b = BitVec.ofNat 8 n := by simp [← hn]
  unfold decodeFrameByte at h
  split at h
  case h_10 => cases h
  all_goals
    next hn => cases h; rw [hb hn]; exact ⟨rfl, rfl, rfl⟩

/-- Settles O3: by channel, what decodes is the encoder's own form. -/
theorem encodeUndoesDecode : Obligations.EncodeUndoesDecode := by
  intro c bs rest i h
  cases c with
  | host =>
    obtain ⟨d, stream, rfl, hd⟩ := decodeCommand_ok h
    exact decodeDescriptor_spells hd
  | wire =>
    cases bs with
    | nil => cases h
    | cons b bs =>
      simp only [decode, decodeFrame] at h
      split at h
      · next hb => cases h; exact decodeFrameByte_spells _ hb
      · cases h
  | event => cases h; exact ⟨rfl, rfl, rfl⟩

/-- Settles O1: each word is a closed value, so its decoding is computed. -/
theorem specWordsDecode : Obligations.SpecWordsDecode := by
  unfold Obligations.SpecWordsDecode
  decide

end Sys2Proof

namespace Sys2Proof.Machine

/-! ### The host's turn -/

/-- On the host's turn the fetch is the host's, with the move used up if the environment named one (log entry 6). -/
theorem fetch_of_hostTurn {s : State} (h : HostTurn s) :
    fetch s = fetchHost { s with moves := s.moves.tail } := by
  rcases h with h | h
  · have hm : s.moves = [] := List.head?_eq_none_iff.mp h
    simp only [fetch, hm, List.tail_nil]
    rw [← hm]
  · obtain ⟨ms, hm⟩ := List.head?_eq_some_iff.mp h
    simp only [fetch, hm, List.tail_cons]

/-- A stream that decodes is not empty, so the host does not wait: its command runs past its own bytes (R110). -/
theorem fetchHost_of_decode {s : State} {i : Instr} {rest : List Byte} (h : decode .host s.host = .ok (i, rest)) :
    fetchHost s = .run i { s with host := rest } := by
  unfold fetchHost
  split
  · next hnil => rw [hnil] at h; cases h
  · rw [h]

/-- Settles O6: the fetch of the host's turn is that of its stream, and what it fetches is run. -/
theorem stepRunsTheHostsCommand : Obligations.StepRunsTheHostsCommand := by
  intro s i rest hturn hdec
  simp only [step, fetch_of_hostTurn hturn, fetchHost_of_decode (s := { s with moves := s.moves.tail }) hdec]

end Sys2Proof.Machine

/-! One invocation of PUMP: the event that runs it, its closed form, its frame and its bounds (R140 to R152). -/

namespace Sys2Proof.Machine

/-! ### The event that runs it -/

/-- The fetch of a hardware-ready event is PUMP with the event's draws (R18, R140). -/
theorem fetch_of_ready {s : State} {k : Nat} {rx : List Byte} {ms : List Move} (h : s.moves = .ready k rx :: ms) :
    fetch s = .run .pump { s with moves := ms, txFree := k, rxOffer := rx } := by
  simp only [fetch, h, takeReady]

/-- The fetch of a frame byte 0 that decodes is the opcode it names (R250; log entry 9). -/
theorem fetch_of_frameByte {s : State} {b : Byte} {i : Instr} {rest : List Byte} {ms : List Move}
    (h : s.moves = .frameByte b :: ms) (hdec : decode .wire [b] = .ok (i, rest)) :
    fetch s = .run i { s with moves := ms } := by
  simp only [fetch, h, hdec]

/-- Settles O7: what the two fetches answer is run. -/
theorem stepRunsTheEvent : Obligations.StepRunsTheEvent := by
  constructor
  · intro s k rx ms h
    simp only [step, fetch_of_ready h]
  · intro s b i rest ms h hdec
    simp only [step, fetch_of_frameByte h hdec]

/-! ### Its closed form -/

/-- Settles O32: the enable is the first thing an invocation looks at. -/
theorem pumpNeedsTheEnable : Obligations.PumpNeedsTheEnable := by
  intro s hie
  simp [exec, execPump, hie]

/-- From cursors that keep R48 an enabled invocation answers: both loops, then the check. -/
theorem exec_pump_eq {s : State} (hcur : CursorsOk s) (hie : s.ie = true) :
    exec .pump s = .next (pumpFinish (overrunNow s) (pumpLoops s)) := by
  have hbody : pumpBody s = .ok (pumpFinish (overrunNow s) (pumpLoops s)) := pumpBody_ok s hcur
  simp only [exec, execPump, if_pos hie, hbody, outcomeOf]

/-- The check after both loops of an enabled invocation, its three ways in one (R147). -/
theorem pumpFinish_eq {u : State} (overrun : Bool) (hie : u.ie = true) :
    pumpFinish overrun u = { u with
      ovr := u.ovr || overrun
      ie := !(overrun || isComplete u)
      history := u.history ++ if overrun || isComplete u then [⟨.pump, .irqDisable .hr⟩] else [] } := by
  rcases pumpFinish_cases overrun u with ⟨h, rfl⟩ | ⟨h, rfl, hc⟩ | ⟨h, rfl, hc⟩ <;> rw [h]
  · simp [irqDisable, emit]
  · simp [irqDisable, emit, isComplete, hc]
  · have hsame : u = { u with ie := true } := by rw [← hie]
    simpa [isComplete, hc] using hsame

/-- The bytes taken complete the frame exactly when they fill it up to `WR` (R42). -/
theorem isComplete_pumpLoops {s : State} (hcur : CursorsOk s) :
    isComplete (pumpLoops s) = decide (s.rcv.toNat + rcvdCount s = s.wr.toNat) := by
  have hwr : (pumpLoops s).wr = s.wr := rfl
  simp only [isComplete, ← BitVec.toNat_inj, pumpLoops_rcv hcur, hwr]

/-- Settles O30: the closed form of both loops and of the check after them, and the reads of the buffer they leave. -/
theorem pumpMovesOneBurst : Obligations.PumpMovesOneBurst := by
  intro s hie hcur hwf
  refine ⟨(pumpLoops s).buf, ?_, fun k hk => ?_, fun a ha => ?_⟩
  · rw [exec_pump_eq hcur hie, pumpFinish_eq (u := pumpLoops s) _ hie, isComplete_pumpLoops hcur]
    rfl
  · refine (read_received s hwf _).trans ((if_pos (by omega)).trans ?_)
    rw [Nat.add_sub_cancel_left]
    rfl
  · exact (read_received s hwf a).trans (if_neg (by omega))

/-! ### Its frame and its bounds -/

/-- Settles O31: the frame of both loops and that of the check after them. -/
theorem pumpWritesOnlyItsOwnState : Obligations.PumpWritesOnlyItsOwnState := by
  intro s t h
  rcases exec_pump_next h with ⟨-, rfl⟩ | ⟨hie, hbody⟩
  · simp
  · obtain ⟨_, _, _, _, _, _, _, _, overrun, rfl, -, -⟩ := pumpBody_frame hbody
    obtain ⟨_, _, _, hfin, hovr, -⟩ := pumpFinish_frame overrun _
    rw [hfin]
    exact ⟨rfl, rfl, rfl, rfl, rfl, rfl, rfl, rfl, rfl, rfl, rfl, hovr, fun _ => hie⟩

/-- Where an enabled invocation leaves the cursors. -/
theorem exec_pump_cursors {s t : State} (hcur : CursorsOk s) (hie : s.ie = true) (h : exec .pump s = .next t) :
    t.snd.toNat = s.snd.toNat + sentCount s ∧ t.rcv.toNat = s.rcv.toNat + rcvdCount s := by
  rw [exec_pump_loops hcur hie h, pumpFinish_snd, pumpFinish_rcv]
  exact ⟨pumpLoops_snd hcur, pumpLoops_rcv hcur⟩

theorem sentCount_le_burst (s : State) : sentCount s ≤ 8 := by unfold sentCount Config.burst; omega

theorem rcvdCount_le_burst (s : State) : rcvdCount s ≤ 8 := by unfold rcvdCount Config.burst; omega

/-- With the transmit slot free throughout, a burst goes out or all that is left. -/
theorem sentCount_of_free {s : State} (hfree : 8 ≤ s.txFree) : sentCount s = min (s.wr.toNat - s.snd.toNat) 8 := by
  unfold sentCount Config.burst
  omega

/-- Settles O33: the cursors move by the two counts, each at most a burst. -/
theorem burstIsBounded : Obligations.BurstIsBounded := by
  intro s t hcur h
  cases hie : s.ie with
  | false =>
    rcases exec_pump_next h with ⟨-, rfl⟩ | ⟨hie₁, -⟩
    · simp
    · simp [hie] at hie₁
  | true =>
    obtain ⟨hsnd, hrcv⟩ := exec_pump_cursors hcur hie h
    have hsent := sentCount_le_burst s
    have hrcvd := rcvdCount_le_burst s
    refine ⟨by omega, by omega, by omega, by omega, fun _ hfree => ?_⟩
    obtain ⟨hle, -, -⟩ := hcur
    rw [hsnd, sentCount_of_free hfree]
    omega

/-! ### A dutiful bus -/

/-- Under BD1 the bytes offered fit into the frame: those in flight and those being sent are not received yet (R49). -/
theorem offer_le_room {s : State} (hcur : CursorsOk s) (hbal : s.snd.toNat = s.rcv.toNat + s.inflight)
    (hduty : BusDuty s) : s.rxOffer.length ≤ s.wr.toNat - s.rcv.toNat := by
  have hsent := sentCount_le s
  obtain ⟨hsnd, -, -⟩ := hcur
  unfold BusDuty at hduty
  omega

/-- An offer that fits is taken up to a burst, so the bounds check does not fire (R146). -/
theorem overrunNow_of_fits {s : State} (h : s.rxOffer.length ≤ s.wr.toNat - s.rcv.toNat) : overrunNow s = false := by
  unfold overrunNow rcvdCount
  exact decide_eq_false (by omega)

/-- Settles O40: on a dutiful bus every byte offered fits into the frame. -/
theorem dutifulBusNeverOverruns : Obligations.DutifulBusNeverOverruns := by
  intro s hgood hd hduty hovr
  cases hie : s.ie with
  | false => exact ⟨s, pumpNeedsTheEnable s hie, hovr⟩
  | true =>
    have hfits := offer_le_room hgood.cursors (hd hie) hduty
    refine ⟨_, exec_pump_eq hgood.cursors hie, ?_⟩
    rw [pumpFinish_eq (u := pumpLoops s) _ hie, overrunNow_of_fits hfits]
    exact (Bool.or_false _).trans hovr

/-! ### The writers of the cursors -/

/-- ABORT moves no cursor (R228). -/
theorem exec_abort_cursors {s t : State} (h : exec .abort s = .next t) : t.snd = s.snd ∧ t.rcv = s.rcv := by
  rcases exec_abort_next h with ⟨-, rfl⟩ | ⟨-, rfl⟩ <;> exact ⟨rfl, rfl⟩

/-- A quiet instruction that moves a cursor has armed: it found Idle and reset both to 0 (R172, R173). -/
theorem QuietStep.cursors_cases {s t : State} (h : QuietStep s t) :
    (t.snd = s.snd ∧ t.rcv = s.rcv) ∨ (t.snd = 0 ∧ t.rcv = 0 ∧ s.seq = .idle) := by
  cases h with
  | answers => exact .inl ⟨rfl, rfl⟩
  | configures => exact .inl ⟨rfl, rfl⟩
  | arms _ _ _ _ hidle => exact .inr ⟨rfl, rfl, hidle⟩

/-- Settles O44: by the instruction; PUMP moves the cursors only while enabled, the begin commands only by arming, and
the others not at all. -/
theorem cursorsAreMovedOnlyByPumpOrArming : Obligations.CursorsAreMovedOnlyByPumpOrArming := by
  intro i s t h hmoved
  have hmoved : ¬(t.snd = s.snd ∧ t.rcv = s.rcv) := not_and_or.mpr hmoved
  cases i
  case pump =>
    rcases exec_pump_next h with ⟨-, rfl⟩ | ⟨hie, -⟩
    · exact absurd ⟨rfl, rfl⟩ hmoved
    · exact .inl ⟨rfl, hie⟩
  case beginRead addr len =>
    obtain ⟨hsnd, hrcv, hidle⟩ := (exec_beginRead_quiet h).cursors_cases.resolve_left hmoved
    exact .inr ⟨hsnd, hrcv, hidle, .inl ⟨addr, len, rfl⟩⟩
  case beginWrite addr payload =>
    obtain ⟨hsnd, hrcv, hidle⟩ := (exec_beginWrite_quiet h).cursors_cases.resolve_left hmoved
    exact .inr ⟨hsnd, hrcv, hidle, .inr ⟨addr, payload, rfl⟩⟩
  all_goals refine absurd ?_ hmoved
  case initBus =>
    obtain ⟨-, rfl⟩ := exec_initBus_next h
    exact ⟨rfl, rfl⟩
  case step =>
    obtain ⟨hsnd, hrcv, -⟩ := (exec_step_move h).cursors_eq
    exact ⟨hsnd, hrcv⟩
  case isIdle =>
    cases h
    exact ⟨rfl, rfl⟩
  case abort => exact exec_abort_cursors h
  all_goals
    rw [exec_wire_next rfl h]
    exact ⟨rfl, rfl⟩

end Sys2Proof.Machine

/-! The Operation Sequencer: the whole next state of an arming begin command and of STEP in each state, runs of polls,
and the transitions of `STATE` (R170 to R186). -/

namespace Sys2Proof.Machine

/-! ### Arming -/

/-- What lies above a list written is as before. -/
theorem Memory.read_writeRange_above {m : Memory} (hm : Memory.wf m) {a x : Nat} {bs : List Byte}
    (hx : a + bs.length ≤ x) : Memory.read (Memory.writeRange m a bs) x = Memory.read m x := by
  rw [Memory.read_writeRange hm, dif_neg (by omega)]

/-- A begin command that passes every check of R278 answers what its arm procedure answers, with `Ok`. -/
theorem beginWith_of_accepted {n : Nat} {arm : State → Except Fault State} {s t : State} (hcfg : s.busCfg = true)
    (hidle : s.seq = .idle) (hovr : s.ovr = false) (hn : n ≤ Config.maxPayload) (harm : arm s = .ok t) :
    beginWith n arm s = .next (returnResult .ok t) := by
  have hcheck : beginCheck n s = .accepted := beginCheck_accepted.mpr ⟨hcfg, hidle, hovr, hn⟩
  simp only [beginWith, hcheck, harm]

/-- Settles O12: the 12 header bytes fit the buffer, so ARM_READ answers, and they are read back. -/
theorem beginReadArms : Obligations.BeginReadArms := by
  intro s addr len hcfg hidle hovr hlen hwf
  have hfits : (readHeader addr).length ≤ Config.capacity := by simp [Config.capacity]
  refine ⟨Memory.writeRange s.buf 0 (readHeader addr), ?_, ?_, fun a ha => ?_⟩
  · exact beginWith_of_accepted hcfg hidle hovr hlen (armFrame_ok _ _ _ s hfits)
  · exact Memory.readRange_writeRange_same hwf 0 (readHeader_length addr)
  · exact Memory.read_writeRange_above hwf (by simpa using ha)

/-- Settles O13: a frame of at most 516 bytes fits the buffer, so ARM_WRITE answers, and it is read back. -/
theorem beginWriteArms : Obligations.BeginWriteArms := by
  intro s addr payload hcfg hidle hovr hlen hwf
  have hfits : (writeFrame addr payload).length ≤ Config.capacity := by
    rw [writeFrame_length, Config.capacity]
    omega
  refine ⟨Memory.writeRange s.buf 0 (writeFrame addr payload), ?_, ?_, fun a ha => ?_⟩
  · exact beginWith_of_accepted hcfg hidle hovr hlen (armFrame_ok _ _ _ s hfits)
  · exact Memory.readRange_writeRange_same hwf 0 (writeFrame_length addr payload)
  · exact Memory.read_writeRange_above hwf (by simpa using ha)

/-! ### What STEP runs in each state it finds (R175 to R184) -/

theorem exec_step_idle {s : State} (hq : s.seq = .idle) : exec .step s = .next (stepIdle s) := by
  simp only [exec, execStep, hq]

theorem exec_step_readArmed {s : State} (hq : s.seq = .readArmed) : exec .step s = .next (stepReadArmed s) := by
  simp only [exec, execStep, hq]

theorem exec_step_writeArmed {s : State} (hq : s.seq = .writeArmed) : exec .step s = .next (stepWriteArmed s) := by
  simp only [exec, execStep, hq]

theorem exec_step_readWaiting {s : State} (hq : s.seq = .readWaiting) :
    exec .step s = outcomeOf (stepWaiting readDone s) := by
  simp only [exec, execStep, hq]

theorem exec_step_writeWaiting {s : State} (hq : s.seq = .writeWaiting) :
    exec .step s = outcomeOf (stepWaiting .ok s) := by
  simp only [exec, execStep, hq]

theorem exec_step_stalled {s : State} (hq : s.seq = .stalled) : exec .step s = .next (stepStalled s) := by
  simp only [exec, execStep, hq]

/-! ### STEP in the Armed states -/

/-- Settles O19: what STEP runs in ReadArmed, its two events in the order of R176. -/
theorem stepEnablesArmedRead : Obligations.StepEnablesArmedRead := by
  intro s hq
  rw [exec_step_readArmed hq]
  simp [stepReadArmed, returnResult, toWaiting, irqSetPriority, irqEnable, emit, res8, resultCode]

/-- Settles O20: what STEP runs in WriteArmed, which makes no priority call (R178). -/
theorem stepEnablesArmedWrite : Obligations.StepEnablesArmedWrite := by
  intro s hq
  exact exec_step_writeArmed hq

/-! ### STEP in the Waiting states -/

/-- Both Waiting states share the checks of R179 and differ only in what completion does. -/
theorem exec_step_waiting {s : State} (hq : s.seq = .readWaiting ∨ s.seq = .writeWaiting) :
    ∃ done, exec .step s = outcomeOf (stepWaiting done s) := by
  rcases hq with hq | hq
  · exact ⟨_, exec_step_readWaiting hq⟩
  · exact ⟨_, exec_step_writeWaiting hq⟩

theorem isComplete_of_eq {s : State} (h : s.rcv = s.wr) : isComplete s = true := decide_eq_true h

theorem isComplete_of_ne {s : State} (h : s.rcv ≠ s.wr) : isComplete s = false := decide_eq_false h

theorem stepWaiting_of_ovr (done : State → Except Fault State) {s : State} (ho : s.ovr = true) :
    stepWaiting done s = .ok (returnResult .bufferOverrun (toIdle s)) := if_pos ho

theorem stepWaiting_of_done {done : State → Except Fault State} {s u : State} (ho : s.ovr = false)
    (hc : s.rcv = s.wr) (hdone : done s = .ok u) : stepWaiting done s = .ok (returnResult .ok (toIdle u)) := by
  simp [stepWaiting, ho, isComplete_of_eq hc, hdone]

theorem stepWaiting_of_failed {done : State → Except Fault State} {s : State} {f : Fault} (ho : s.ovr = false)
    (hc : s.rcv = s.wr) (hdone : done s = .error f) : stepWaiting done s = .error f := by
  simp [stepWaiting, ho, isComplete_of_eq hc, hdone]

theorem stepWaiting_of_incomplete (done : State → Except Fault State) {s : State} (ho : s.ovr = false)
    (hc : s.rcv ≠ s.wr) : stepWaiting done s = .ok (stepIncomplete s) := by
  simp [stepWaiting, ho, isComplete_of_ne hc]

/-- Settles O21: `OVR` is the first check of both Waiting states (R179). -/
theorem stepReportsOverrunFirst : Obligations.StepReportsOverrunFirst := by
  intro s hq ho
  obtain ⟨done, hstep⟩ := exec_step_waiting hq
  rw [hstep, stepWaiting_of_ovr done ho]
  rfl

/-- Settles O23: an overrun is reported as in a read, and the completion of a write does nothing of its own. -/
theorem stepFinishesWrite : Obligations.StepFinishesWrite := by
  refine ⟨fun s hq ho => stepReportsOverrunFirst s (.inr hq) ho, fun s hq ho hc => ?_⟩
  rw [exec_step_writeWaiting hq, stepWaiting_of_done ho hc rfl]
  rfl

/-- Settles O22: the copy starts at cursor 0 of the store, so the capacity alone decides whether all `WR` bytes fit. -/
theorem stepCopiesCompletedRead : Obligations.StepCopiesCompletedRead := by
  intro s hq ho hc hwr hwf
  have hfits : 0 + s.wr.toNat ≤ Config.capacity := by simpa [Config.capacity] using hwr
  refine ⟨fun hroom => ?_, fun hfull => ?_⟩
  · have hcopy := storeCopy_ok s.wr.toNat 0 (storeReset s) hfits (by simpa using hroom)
    have hlen := Memory.readRange_length s.buf 0 s.wr.toNat
    refine ⟨Memory.writeRange s.store 0 (Memory.readRange s.buf 0 s.wr.toNat), ?_, fun a ha => ?_, fun a ha => ?_⟩
    · rw [exec_step_readWaiting hq, stepWaiting_of_done ho hc hcopy]
      simp [outcomeOf, returnResult, toIdle, storeReset, emit, appendEvents, res8, resultCode]
    · rw [Memory.read_writeRange hwf, dif_pos (by omega), Memory.readRange_getElem]
      simp
    · exact Memory.read_writeRange_above hwf (by omega)
  · have hover := storeCopy_overflow s.wr.toNat 0 (storeReset s) hfits (Nat.zero_le _) (by simpa using hfull)
    rw [exec_step_readWaiting hq, stepWaiting_of_failed ho hc hover]
    rfl

/-! ### Polls of an incomplete transfer -/

/-- The block waits for bytes that have not come: no overrun, and the frame is incomplete (R183). -/
def Hung (s : State) : Prop := (s.seq = .readWaiting ∨ s.seq = .writeWaiting) ∧ s.ovr = false ∧ s.rcv ≠ s.wr

/-- The state after `n` polls that were counted and answered `Ok`, and did nothing else (R183). -/
def polled (n : Nat) (s : State) : State :=
  { s with stallCnt := satSucc^[n] s.stallCnt, results := s.results ++ List.replicate n 0x00#8 }

theorem polled_zero (s : State) : polled 0 s = s := by simp [polled]

theorem polled_one_add (n : Nat) (s : State) : polled n (polled 1 s) = polled (n + 1) s := by
  simp [polled, List.replicate_succ]

/-- Counted polls leave the transfer as incomplete as it was. -/
theorem Hung.after_polls {s : State} (h : Hung s) (n : Nat) : Hung (polled n s) := h

theorem Hung.exec_step {s : State} (h : Hung s) : exec .step s = .next (stepIncomplete s) := by
  obtain ⟨hq, ho, hc⟩ := h
  obtain ⟨done, hstep⟩ := exec_step_waiting hq
  rw [hstep, stepWaiting_of_incomplete done ho hc]
  rfl

/-- A poll that does not reach the limit is only counted. -/
theorem Hung.exec_step_counts {s : State} (h : Hung s)
    (hlim : stallReached s.params.stallLimit (satSucc s.stallCnt) = false) : exec .step s = .next (polled 1 s) := by
  simp only [h.exec_step, stepIncomplete, hlim]
  rfl

/-- A poll that reaches the limit gives the operation up. -/
theorem Hung.exec_step_stalls {s : State} (h : Hung s)
    (hlim : stallReached s.params.stallLimit (satSucc s.stallCnt) = true) :
    exec .step s = .next { s with
      stallCnt := satSucc s.stallCnt
      seq := .stalled
      ie := false
      history := s.history ++ [{ agent := .sequencer, prim := .irqDisable .hr }]
      results := s.results ++ [0x03#8] } := by
  simp only [h.exec_step, stepIncomplete, hlim]
  rfl

/-- Settles O24: by the limit, and by whether the count reaches it. -/
theorem stepAppliesStallRule : Obligations.StepAppliesStallRule := by
  intro s hq ho hc
  have hung : Hung s := ⟨hq, ho, hc⟩
  refine ⟨satSucc s.stallCnt, satSucc_toNat s.stallCnt, ?_⟩
  cases hl : s.params.stallLimit with
  | none => exact hung.exec_step_counts (by rw [hl]; rfl)
  | some limit =>
    simp only
    split
    · next hreach => exact hung.exec_step_stalls (by rw [hl]; exact decide_eq_true hreach)
    · next hbelow => exact hung.exec_step_counts (by rw [hl]; exact decide_eq_false hbelow)

theorem polls_succ {n : Nat} {s t : State} (h : exec .step s = .next t) : polls (n + 1) s = polls n t := by
  simp only [polls, h]

/-- One poll more at the end of a run of polls. -/
theorem polls_succ_last {n : Nat} {s t : State} (h : polls n s = .next t) : polls (n + 1) s = exec .step t := by
  induction n generalizing s with
  | zero =>
    cases h
    simp only [polls]
    cases exec .step t <;> rfl
  | succ n ih =>
    rw [polls] at h ⊢
    split at h
    · exact ih h
    · cases h
    · cases h

/-- Polls none of which reaches the limit are only counted. -/
theorem Hung.polls_eq {n : Nat} {s : State} (h : Hung s)
    (hlim : ∀ k < n, stallReached s.params.stallLimit (satSucc^[k + 1] s.stallCnt) = false) :
    polls n s = .next (polled n s) := by
  induction n generalizing s with
  | zero => rw [polled_zero, polls]
  | succ n ih =>
    have hfirst := h.exec_step_counts (hlim 0 n.succ_pos)
    have hrest := ih (h.after_polls 1) fun k hk => hlim (k + 1) (by omega)
    rw [polls_succ hfirst, hrest, polled_one_add]

/-- Settles O25: without a limit no poll reaches it. -/
theorem hungBusWaitsForEver : Obligations.HungBusWaitsForEver := by
  intro n s hq ho hc hnone
  have hung : Hung s := ⟨hq, ho, hc⟩
  exact ⟨satSucc^[n] s.stallCnt, hung.polls_eq fun k _ => by rw [hnone]; rfl⟩

/-- Short of saturation the counter counts the polls. -/
theorem toNat_iterate_satSucc {k : Nat} (h : k < 2 ^ 32) : (satSucc^[k] 0).toNat = k := by
  induction k with
  | zero => rfl
  | succ k ih =>
    rw [Function.iterate_succ_apply', satSucc_toNat, ih (by omega)]
    omega

/-- From a counter of 0 the first poll that reaches a limit is the one of that number. -/
theorem stallReached_iterate_satSucc (limit : PollLimit) {k : Nat} (h : k < 2 ^ 32) :
    stallReached (some limit) (satSucc^[k] 0) = decide (limit.val.toNat ≤ k) := by
  rw [stallReached_some, toNat_iterate_satSucc h]

/-- Settles O26: the first `L - 1` polls are counted, and the next one reaches `L`. -/
theorem stallLimitBoundsTheWait : Obligations.StallLimitBoundsTheWait := by
  intro s limit hq ho hc hlimit hzero
  have hung : Hung s := ⟨hq, ho, hc⟩
  have hlt := limit.val.isLt
  obtain ⟨n, hn⟩ : ∃ n, limit.val.toNat = n + 1 := Nat.exists_eq_add_one.mpr (PollLimit_pos limit)
  have hcounted : polls n s = .next (polled n s) := hung.polls_eq fun k hk => by
    rw [hlimit, hzero, stallReached_iterate_satSucc limit (by omega)]
    exact decide_eq_false (by omega)
  have hlast : satSucc (polled n s).stallCnt = limit.val := by
    refine BitVec.eq_of_toNat_eq ?_
    rw [polled, hzero, ← Function.iterate_succ_apply' satSucc, toNat_iterate_satSucc (by omega), hn]
  have hreach : stallReached (polled n s).params.stallLimit (satSucc (polled n s).stallCnt) = true := by
    rw [hlast, polled, hlimit, stallReached_some]
    exact decide_eq_true (le_refl _)
  rw [hn, polls_succ_last hcounted, (hung.after_polls n).exec_step_stalls hreach, hlast]
  rfl

/-! ### The transitions of `STATE` -/

/-- STEP leaves an Armed state for its Waiting state, and a Waiting state for Idle or Stalled (R175 to R184). -/
theorem exec_step_seq {s t : State} (h : exec .step s = .next t) :
    t.seq = s.seq ∨ (s.seq = .readArmed ∧ t.seq = .readWaiting) ∨ (s.seq = .writeArmed ∧ t.seq = .writeWaiting) ∨
      (isWaiting s = true ∧ (t.seq = .idle ∨ t.seq = .stalled)) := by
  rcases exec_step_next h with ⟨-, rfl⟩ | ⟨-, rfl⟩ | ⟨hq, rfl⟩ | ⟨hq, rfl⟩ | ⟨hq, -, rfl⟩ | ⟨hq, -, -, u, -, rfl⟩ |
    ⟨hq, -, -, rfl⟩ | ⟨hq, -, -, rfl⟩
  · exact .inl rfl
  · exact .inl rfl
  · exact .inr (.inl ⟨hq, rfl⟩)
  · exact .inr (.inr (.inl ⟨hq, rfl⟩))
  · exact .inr (.inr (.inr ⟨decide_eq_true hq, .inl rfl⟩))
  · exact .inr (.inr (.inr ⟨decide_eq_true (.inl hq), .inl rfl⟩))
  · exact .inr (.inr (.inr ⟨decide_eq_true (.inr hq), .inl rfl⟩))
  · rcases stepIncomplete_cases s with ⟨-, hs⟩ | ⟨-, hs⟩ <;> rw [hs]
    · exact .inr (.inr (.inr ⟨decide_eq_true hq, .inr rfl⟩))
    · exact .inl rfl

/-- Settles O47: by the instruction; the begin commands change `STATE` only by arming, and those not named not at
all. -/
theorem noOtherTransitionExists : Obligations.NoOtherTransitionExists := by
  intro i s t h hne
  cases i
  case beginRead addr len =>
    rcases exec_beginRead_next h with ⟨r, rfl⟩ | ⟨-, hidle, -, -, rfl⟩
    · exact absurd rfl hne
    · exact .inl ⟨⟨addr, len, rfl⟩, hidle, rfl⟩
  case beginWrite addr payload =>
    rcases exec_beginWrite_next h with ⟨r, rfl⟩ | ⟨-, hidle, -, -, rfl⟩
    · exact absurd rfl hne
    · exact .inr (.inl ⟨⟨addr, payload, rfl⟩, hidle, rfl⟩)
  case step => simpa using (exec_step_seq h).resolve_left hne
  case abort =>
    obtain ⟨hidle, -⟩ := exec_abort_frame h
    simp [hidle]
  all_goals refine absurd ?_ hne
  case initBus =>
    obtain ⟨-, rfl⟩ := exec_initBus_next h
    rfl
  case isIdle =>
    cases h
    rfl
  case pump =>
    obtain ⟨hseq, -⟩ := exec_pump_frame h
    exact hseq
  all_goals rw [exec_wire_next rfl h]

/-- Settles O18: what STEP runs in Idle and in Stalled; of the transitions of `STATE` only that of ABORT starts in
Stalled. -/
theorem stepRestsInIdleAndStalled : Obligations.StepRestsInIdleAndStalled := by
  refine ⟨fun s hq => ?_, fun s hq => ?_, fun i s t hq h hleft => ?_⟩
  · exact exec_step_idle hq
  · exact exec_step_stalled hq
  · have hwait : isWaiting s = false := by simp [isWaiting, hq]
    have hmove := noOtherTransitionExists i s t h (by rwa [hq])
    obtain ⟨habort, -⟩ : i = .abort ∧ t.seq = .idle := by simpa [hq, hwait] using hmove
    exact habort

end Sys2Proof.Machine

/-! The host's commands (R210 to R229): INIT_BUS, the begin commands that are rejected, IS_IDLE and ABORT; and that no
instruction reads the results returned before it (R226). -/

namespace Sys2Proof.Machine

/-! ### ABORT -/

/-- ABORT, its conditional disable folded into one state. -/
theorem exec_abort_eq (s : State) :
    exec .abort s = .next { s with
      seq := .idle
      ie := false
      stallCnt := 0
      history := s.history ++ (if s.ie then [{ agent := .sequencer, prim := .irqDisable .hr }] else [])
      results := s.results ++ [0x00#8] } := by
  simp only [exec, execAbort]
  cases hie : s.ie
  · simp [returnResult, toIdle, hie, res8, resultCode]
  · simp [returnResult, toIdle, irqDisable, emit, res8, resultCode]

/-! ### Earlier results are never read (R226) -/

/-- The state with the given results returned before its own. -/
def prependResults (before : List Byte) (s : State) : State := { s with results := before ++ s.results }

/-- An operation runs alike whatever results were returned before, and leaves them in front. -/
def IgnoresResults (f : State → Except Fault State) : Prop :=
  ∀ (before : List Byte) (s : State), f (prependResults before s) = (f s).map (prependResults before)

@[simp] theorem prependResults_ie (before : List Byte) (s : State) : (prependResults before s).ie = s.ie := rfl
@[simp] theorem prependResults_ovr (before : List Byte) (s : State) : (prependResults before s).ovr = s.ovr := rfl
@[simp] theorem prependResults_busCfg (before : List Byte) (s : State) :
    (prependResults before s).busCfg = s.busCfg := rfl
@[simp] theorem prependResults_wr (before : List Byte) (s : State) : (prependResults before s).wr = s.wr := rfl
@[simp] theorem prependResults_snd (before : List Byte) (s : State) : (prependResults before s).snd = s.snd := rfl
@[simp] theorem prependResults_rcv (before : List Byte) (s : State) : (prependResults before s).rcv = s.rcv := rfl
@[simp] theorem prependResults_storeCur (before : List Byte) (s : State) :
    (prependResults before s).storeCur = s.storeCur := rfl
@[simp] theorem prependResults_params (before : List Byte) (s : State) :
    (prependResults before s).params = s.params := rfl
@[simp] theorem prependResults_txFree (before : List Byte) (s : State) :
    (prependResults before s).txFree = s.txFree := rfl
@[simp] theorem prependResults_rxOffer (before : List Byte) (s : State) :
    (prependResults before s).rxOffer = s.rxOffer := rfl

@[simp] theorem memRead_prependResults (i : Nat) (before : List Byte) (s : State) :
    memRead i (prependResults before s) = memRead i s := rfl

@[simp] theorem isComplete_prependResults (before : List Byte) (s : State) :
    isComplete (prependResults before s) = isComplete s := rfl

@[simp] theorem beginCheck_prependResults (n : Nat) (before : List Byte) (s : State) :
    beginCheck n (prependResults before s) = beginCheck n s := rfl

theorem busRx_prependResults (rest before : List Byte) (s : State) :
    busRx rest (prependResults before s) = prependResults before (busRx rest s) := rfl

theorem returnResult_prependResults (r : ResultCode) (before : List Byte) (s : State) :
    returnResult r (prependResults before s) = prependResults before (returnResult r s) := by
  simp [returnResult, prependResults]

theorem returnIdle_prependResults (idle : Bool) (before : List Byte) (s : State) :
    returnIdle idle (prependResults before s) = prependResults before (returnIdle idle s) := by
  simp [returnIdle, prependResults]

/-! #### The arm procedures and the completion copy -/

theorem memWrite_ignoresResults (i : Nat) (b : Byte) : IgnoresResults (memWrite i b) := by
  intro before s
  unfold memWrite
  split <;> rfl

theorem memWriteAll_ignoresResults (i : Nat) (bs : List Byte) : IgnoresResults (memWriteAll i bs) := by
  intro before s
  induction bs generalizing i s with
  | nil => rfl
  | cons b bs ih =>
    simp only [memWriteAll, memWrite_ignoresResults i b before s]
    cases memWrite i b s with
    | error f => rfl
    | ok t => exact ih (i + 1) t

theorem armFrame_ignoresResults (bytes : List Byte) (wr : Nat) (q : SeqState) :
    IgnoresResults (armFrame bytes wr q) := by
  intro before s
  have hwrite := memWriteAll_ignoresResults 0 bytes before { s with snd := 0, rcv := 0 }
  simp only [prependResults] at hwrite
  simp only [armFrame, prependResults, hwrite]
  cases memWriteAll 0 bytes { s with snd := 0, rcv := 0 } with
  | error f => rfl
  | ok t => rfl

theorem armRead_ignoresResults (addr : FlashAddr) (n : Nat) : IgnoresResults (armRead addr n) :=
  armFrame_ignoresResults _ _ _

theorem armWrite_ignoresResults (addr : FlashAddr) (payload : List Byte) : IgnoresResults (armWrite addr payload) :=
  armFrame_ignoresResults _ _ _

theorem storeAppend_ignoresResults (b : Byte) : IgnoresResults (storeAppend b) := by
  intro before s
  rw [storeAppend, storeAppend, prependResults_storeCur, prependResults_params]
  split <;> rfl

theorem storeCopy_ignoresResults (n i : Nat) : IgnoresResults (storeCopy n i) := by
  intro before s
  induction n generalizing i s with
  | zero => rfl
  | succ n ih =>
    simp only [storeCopy, memRead_prependResults]
    cases memRead i s with
    | error f => rfl
    | ok b =>
      simp only [storeAppend_ignoresResults b before s]
      cases storeAppend b s with
      | error f => rfl
      | ok t => exact ih (i + 1) t

theorem readDone_ignoresResults : IgnoresResults readDone := fun before s =>
  storeCopy_ignoresResults s.wr.toNat 0 before (storeReset s)

/-! #### The polls -/

theorem stepIncomplete_prependResults (before : List Byte) (s : State) :
    stepIncomplete (prependResults before s) = prependResults before (stepIncomplete s) := by
  by_cases hreach : stallReached s.params.stallLimit (satSucc s.stallCnt) = true
  · simp [stepIncomplete, prependResults, hreach, returnResult, irqDisable, emit]
  · simp [stepIncomplete, prependResults, hreach, returnResult]

theorem stepWaiting_ignoresResults {done : State → Except Fault State} (hdone : IgnoresResults done) :
    IgnoresResults (stepWaiting done) := by
  intro before s
  simp only [stepWaiting, prependResults_ovr, isComplete_prependResults, hdone before s, stepIncomplete_prependResults]
  split
  · exact congrArg Except.ok (returnResult_prependResults _ before (toIdle s))
  · split
    · cases done s with
      | error f => rfl
      | ok t => exact congrArg Except.ok (returnResult_prependResults _ before (toIdle t))
    · rfl

/-! #### The loops of PUMP and the check after them -/

theorem txLoop_ignoresResults (n : Nat) : IgnoresResults (txLoop n) := by
  intro before s
  induction n generalizing s with
  | zero => rfl
  | succ n ih =>
    rw [txLoop, txLoop, prependResults_txFree, prependResults_snd, prependResults_wr, memRead_prependResults]
    split
    · rfl
    · cases memRead s.snd.toNat s with
      | error f => rfl
      | ok b => exact ih { busTx b s with snd := s.snd + 1 }

/-- The receive loop runs alike too, and its bounds check fires alike. -/
theorem rxLoop_prependResults (n : Nat) (before : List Byte) (s : State) :
    rxLoop n (prependResults before s) = (rxLoop n s).map (Prod.map (prependResults before) id) := by
  induction n generalizing s with
  | zero => rfl
  | succ n ih =>
    simp only [rxLoop, prependResults_rxOffer, prependResults_rcv, prependResults_wr, busRx_prependResults]
    cases s.rxOffer with
    | nil => rfl
    | cons b rest =>
      simp only [memWrite_ignoresResults s.rcv.toNat b before (busRx rest s)]
      split
      · rfl
      · cases memWrite s.rcv.toNat b (busRx rest s) with
        | error f => rfl
        | ok t => exact ih { t with rcv := s.rcv + 1 }

theorem pumpFinish_prependResults (overrun : Bool) (before : List Byte) (s : State) :
    pumpFinish overrun (prependResults before s) = prependResults before (pumpFinish overrun s) := by
  rw [pumpFinish, pumpFinish, isComplete_prependResults]
  split
  · rfl
  · split <;> rfl

theorem pumpBody_ignoresResults : IgnoresResults pumpBody := by
  intro before s
  simp only [pumpBody, txLoop_ignoresResults Config.burst before s]
  cases txLoop Config.burst s with
  | error f => rfl
  | ok t =>
    simp only [Except.map, rxLoop_prependResults Config.burst before t]
    cases rxLoop Config.burst t with
    | error f => rfl
    | ok r => exact congrArg Except.ok (pumpFinish_prependResults r.2 before r.1)

/-! #### Every instruction -/

/-- An outcome with its next state, if it has one, changed. -/
def mapNext (f : State → State) : Host.Outcome State Fault Refusal → Host.Outcome State Fault Refusal
  | .next s => .next (f s)
  | .fault r => .fault r
  | .refused r => .refused r

theorem outcomeOf_map (f : State → State) (r : Except Fault State) :
    outcomeOf (r.map f) = mapNext f (outcomeOf r) := by
  cases r <;> rfl

theorem beginWith_prependResults (n : Nat) {arm : State → Except Fault State} (harm : IgnoresResults arm)
    (before : List Byte) (s : State) :
    beginWith n arm (prependResults before s) = mapNext (prependResults before) (beginWith n arm s) := by
  simp only [beginWith, beginCheck_prependResults, harm before s]
  cases beginCheck n s with
  | violation => rfl
  | refused r => exact congrArg Host.Outcome.next (returnResult_prependResults r before s)
  | accepted =>
    cases arm s with
    | error f => rfl
    | ok t => exact congrArg Host.Outcome.next (returnResult_prependResults .ok before t)

theorem exec_initBus_prependResults (before : List Byte) (s : State) :
    exec .initBus (prependResults before s) = mapNext (prependResults before) (exec .initBus s) := by
  simp only [exec, execInitBus]
  rw [prependResults_busCfg]
  split
  · rfl
  · exact congrArg Host.Outcome.next (returnResult_prependResults .ok before { busConfigure s with busCfg := true })

theorem exec_step_prependResults (before : List Byte) (s : State) :
    exec .step (prependResults before s) = mapNext (prependResults before) (exec .step s) := by
  cases hq : s.seq with
  | idle =>
    rw [exec_step_idle hq, exec_step_idle (s := prependResults before s) hq]
    exact congrArg Host.Outcome.next (returnResult_prependResults .ok before s)
  | readArmed =>
    rw [exec_step_readArmed hq, exec_step_readArmed (s := prependResults before s) hq]
    exact congrArg Host.Outcome.next (returnResult_prependResults .ok before
      (toWaiting .readWaiting (irqSetPriority .sequencer (irqEnable .sequencer s))))
  | writeArmed =>
    rw [exec_step_writeArmed hq, exec_step_writeArmed (s := prependResults before s) hq]
    exact congrArg Host.Outcome.next (returnResult_prependResults .ok before
      (toWaiting .writeWaiting (irqEnable .sequencer s)))
  | readWaiting =>
    rw [exec_step_readWaiting hq, exec_step_readWaiting (s := prependResults before s) hq,
      stepWaiting_ignoresResults readDone_ignoresResults, outcomeOf_map]
  | writeWaiting =>
    rw [exec_step_writeWaiting hq, exec_step_writeWaiting (s := prependResults before s) hq,
      stepWaiting_ignoresResults (fun _ _ => rfl), outcomeOf_map]
  | stalled =>
    rw [exec_step_stalled hq, exec_step_stalled (s := prependResults before s) hq]
    exact congrArg Host.Outcome.next (returnResult_prependResults .stalled before s)

theorem exec_pump_prependResults (before : List Byte) (s : State) :
    exec .pump (prependResults before s) = mapNext (prependResults before) (exec .pump s) := by
  simp only [exec, execPump, prependResults_ie, pumpBody_ignoresResults before s, outcomeOf_map]
  split <;> rfl

/-- Every instruction runs alike whatever results were returned before it, and leaves them in front. -/
theorem exec_prependResults (i : Instr) (before : List Byte) (s : State) :
    exec i (prependResults before s) = mapNext (prependResults before) (exec i s) := by
  cases i with
  | initBus => exact exec_initBus_prependResults before s
  | beginRead addr len => exact beginWith_prependResults len.toNat (armRead_ignoresResults addr len.toNat) before s
  | beginWrite addr payload =>
    exact beginWith_prependResults payload.length (armWrite_ignoresResults addr payload) before s
  | step => exact exec_step_prependResults before s
  | isIdle => exact congrArg Host.Outcome.next (returnIdle_prependResults (isIdleState s) before s)
  | abort => simp [exec_abort_eq, mapNext, prependResults]
  | pump => exact exec_pump_prependResults before s
  | flashStatus | flashRead | flashId | flashWrite | flashErase | flashWriteEnable | flashBuffer2WriteEnable
  | flashBuffer2Write | flashBuffer2Commit => rfl

/-- Settles O28: both states are one state without results, run after different earlier ones. -/
theorem isIdleCanBeInserted : Obligations.IsIdleCanBeInserted := by
  refine ⟨fun s => ⟨res8 .ok (isIdleState s), rfl⟩, fun i s before => ?_⟩
  have hrun (rs : List Byte) :
      exec i { s with results := rs } = mapNext (prependResults rs) (exec i { s with results := [] }) := by
    simpa [prependResults] using exec_prependResults i rs { s with results := [] }
  have hs : exec i s = mapNext (prependResults s.results) (exec i { s with results := [] }) := hrun s.results
  rw [hs, hrun before]
  cases exec i { s with results := [] } with
  | next t => exact ⟨t.results, rfl, rfl⟩
  | fault f => rfl
  | refused e => rfl

/-! ### Begin commands that are rejected (R214 to R222) -/

theorem beginWith_of_refused {n : Nat} (arm : State → Except Fault State) {s : State} {r : ResultCode}
    (h : beginCheck n s = .refused r) : beginWith n arm s = .next (returnResult r s) := by
  simp only [beginWith, h]

theorem beginCheck_of_busy (n : Nat) {s : State} (hcfg : s.busCfg = true) (hbusy : s.seq ≠ .idle) :
    beginCheck n s = .refused .operationInProgress := by
  simp [beginCheck, hcfg, hbusy]

theorem beginCheck_of_tooLong {n : Nat} {s : State} (hcfg : s.busCfg = true) (hidle : s.seq = .idle)
    (hn : Config.maxPayload < n) : beginCheck n s = .refused .bufferOverrun := by
  simp [beginCheck, hcfg, hidle, hn]

/-- Settles O14: `STATE` is checked before `OVR` and the length (R278), alike in both commands. -/
theorem busyBeginIsRejected : Obligations.BusyBeginIsRejected := by
  intro s hcfg hbusy
  exact ⟨fun addr len => beginWith_of_refused (armRead addr len.toNat) (beginCheck_of_busy _ hcfg hbusy),
    fun addr payload => beginWith_of_refused (armWrite addr payload) (beginCheck_of_busy _ hcfg hbusy)⟩

/-- Settles O16: the length is the last check (R278), and its refusal only returns a result. -/
theorem tooLongBeginIsRejected : Obligations.TooLongBeginIsRejected := by
  intro s hcfg hidle _
  exact ⟨fun addr len hn => beginWith_of_refused (armRead addr len.toNat) (beginCheck_of_tooLong hcfg hidle hn),
    fun addr payload hn => beginWith_of_refused (armWrite addr payload) (beginCheck_of_tooLong hcfg hidle hn)⟩

/-- Settles O8: the command is decoded with its payload before it runs, and it runs in a block that is not Idle. -/
theorem rejectedWriteConsumesItsStream : Obligations.RejectedWriteConsumesItsStream := by
  intro s addr payload rest hturn hhost hlen hcfg hbusy
  have hdec : decode .host s.host = .ok (.beginWrite addr payload, rest) := by
    rw [hhost]
    exact decodeUndoesEncode (.beginWrite addr payload) rest (decide_eq_true hlen)
  obtain ⟨-, hrejected⟩ := busyBeginIsRejected { s with moves := s.moves.tail, host := rest } hcfg hbusy
  rw [stepRunsTheHostsCommand s _ rest hturn hdec, hrejected addr payload]

/-! ### The commands without operands -/

/-- Settles O10: the descriptor 1 has only `CMD` set, and the command runs past the check of R211. -/
theorem initBusConfiguresOnce : Obligations.InitBusConfiguresOnce := by
  refine ⟨fun rest => ?_, fun s hcfg => ?_⟩
  · obtain ⟨hinit, -⟩ := decodeDescriptor_bare rest
    exact hinit
  · simp only [exec, execInitBus, hcfg]
    rfl

/-- Settles O27: the descriptor 5 has only `CMD` set, and bit 4 of the result word is `idle` (R112). -/
theorem isIdleAnswersOnlyTheState : Obligations.IsIdleAnswersOnlyTheState := by
  refine ⟨fun rest => ?_, fun s hidle => ?_, fun s hbusy => ?_⟩
  · obtain ⟨-, -, hisIdle, -⟩ := decodeDescriptor_bare rest
    exact hisIdle
  · have hanswer : isIdleState s = true := decide_eq_true hidle
    simp only [exec, execIsIdle, hanswer]
    rfl
  · have hanswer : isIdleState s = false := decide_eq_false hbusy
    simp only [exec, execIsIdle, hanswer]
    rfl

/-- Settles O29: the descriptor 6 has only `CMD` set, and the disable is the one event ABORT can record (R229). -/
theorem abortReturnsToIdle : Obligations.AbortReturnsToIdle := by
  refine ⟨fun rest => ?_, exec_abort_eq⟩
  obtain ⟨-, -, -, habort⟩ := decodeDescriptor_bare rest
  exact habort

end Sys2Proof.Machine

/-! The frame opcodes: what each does to the block and which frame bytes name one (R250 to R260; log entry 9), and that
the arm procedures put only those of FLASH_READ and FLASH_WRITE into the buffer (R105, R252, R254). -/

namespace Sys2Proof.Machine

/-! ### Opcodes recognised on the wire -/

/-- A frame opcode completes in every state and leaves it as it is (R7, R250). -/
theorem exec_of_wire {i : Instr} (hw : i.channel = .wire) (s : State) : exec i s = .next s := by
  cases i
  case initBus | beginRead | beginWrite | step | isIdle | abort | pump => cases hw
  all_goals rfl

/-- What a frame byte 0 names is a frame opcode. -/
theorem channel_of_decodeFrameByte {b : Byte} {i : Instr} (h : decodeFrameByte b = some i) : i.channel = .wire := by
  obtain ⟨-, hwire, -⟩ := decodeFrameByte_spells [] h
  exact hwire

/-- The nine values of frame byte 0 that name an opcode (R250). -/
theorem isSome_decodeFrameByte (b : Byte) :
    (decodeFrameByte b).isSome ↔ b.toNat ∈ [0xD7, 0xE8, 0x9F, 0x82, 0x81, 0x88, 0x89, 0x85, 0x87] := by
  unfold decodeFrameByte
  split
  case h_10 => simp_all
  all_goals
    next hb => simp [hb]

/-- The move of a frame byte 0 leaves the block as it is where the byte names an opcode, and is refused elsewhere. -/
theorem step_of_frameByte {s : State} {b : Byte} {ms : List Move} (h : s.moves = .frameByte b :: ms) :
    step s = if (decodeFrameByte b).isSome then .next { s with moves := ms } else .refused .unknownFrameOpcode := by
  cases hb : decodeFrameByte b with
  | none => simp [step, fetch, h, decode, decodeFrame, hb, refusalOf]
  | some i =>
    have hdec : decode .wire [b] = .ok (i, []) := by simp only [decode, decodeFrame, hb]
    obtain ⟨-, hruns⟩ := stepRunsTheEvent
    rw [hruns s b i [] ms h hdec]
    exact exec_of_wire (channel_of_decodeFrameByte hb) _

/-- Settles O9: the nine instructions are those of the wire, and a step on a frame byte runs what the byte names. -/
theorem frameOpcodesLeaveTheBlockAlone : Obligations.FrameOpcodesLeaveTheBlockAlone := by
  constructor
  · intro s
    refine ⟨?_, ?_, ?_, ?_, ?_, ?_, ?_, ?_, ?_⟩
    all_goals exact exec_of_wire rfl s
  · intro s b ms h
    simp only [step_of_frameByte h, isSome_decodeFrameByte]

/-! ### Opcodes put into the buffer -/

/-- A list written is read back at its first address. -/
theorem Memory.read_writeRange_head {m : Memory} (hm : Memory.wf m) (a : Nat) (b : Byte) (bs : List Byte) :
    Memory.read (Memory.writeRange m a (b :: bs)) a = b := by
  simp [Memory.read_writeRange hm]

/-- STEP writes no byte of the buffer. -/
theorem StepMove.buf_eq {s t : State} (h : StepMove s t) : t.buf = s.buf := by cases h <;> rfl

/-- ABORT writes no byte of the buffer (R228). -/
theorem exec_abort_buf {s t : State} (h : exec .abort s = .next t) : t.buf = s.buf := by
  rcases exec_abort_next h with ⟨-, rfl⟩ | ⟨-, rfl⟩ <;> rfl

/-- Settles O48: by the instruction; the begin commands write the buffer only by arming, with the opcode as the frame's
first byte, and the others but PUMP not at all. -/
theorem onlyTwoOpcodesAreArmed : Obligations.OnlyTwoOpcodesAreArmed := by
  intro i s t hwf h hpump hne
  cases i
  case pump => exact absurd rfl hpump
  case beginRead addr len =>
    rcases exec_beginRead_next h with ⟨r, rfl⟩ | ⟨-, -, -, -, rfl⟩
    · exact absurd rfl hne
    · exact .inl ⟨Memory.read_writeRange_head hwf 0 opRead _, rfl⟩
  case beginWrite addr payload =>
    rcases exec_beginWrite_next h with ⟨r, rfl⟩ | ⟨-, -, -, -, rfl⟩
    · exact absurd rfl hne
    · exact .inr ⟨Memory.read_writeRange_head hwf 0 opWrite _, rfl⟩
  all_goals refine absurd ?_ hne
  case initBus =>
    obtain ⟨-, rfl⟩ := exec_initBus_next h
    rfl
  case step => exact (exec_step_move h).buf_eq
  case isIdle =>
    cases h
    rfl
  case abort => exact exec_abort_buf h
  all_goals rw [exec_wire_next rfl h]

end Sys2Proof.Machine

/-! What stops a step without a next state: the boot order and a full ExternalStore as faults, bad descriptors and short
payloads as refusals, and no buffer access past the end (R281 to R285). -/

namespace Sys2Proof

/-! ### Descriptors that are no command -/

theorem decodeDescriptor_of_reserved_bits {d : Descriptor} (stream : List Byte)
    (h : rsv0Field d ≠ 0 ∨ rsv1Field d ≠ 0) : decodeDescriptor d stream = .error .reservedCommand := if_pos h

/-- A `CMD` that names no command, or one without operands beside an operand field that is not 0 (R115). -/
theorem decodeDescriptor_of_reserved_command {d : Descriptor} (stream : List Byte)
    (h : (cmdField d).toNat = 0 ∨ 7 ≤ (cmdField d).toNat ∨
      ((cmdField d).toNat ∈ [1, 4, 5, 6] ∧ (addrField d ≠ 0 ∨ lenField d ≠ 0))) :
    decodeDescriptor d stream = .error .reservedCommand := by
  have hcmd : (cmdField d).toNat ≠ 2 ∧ (cmdField d).toNat ≠ 3 := by
    simp only [List.mem_cons, List.not_mem_nil, or_false] at h
    omega
  obtain ⟨hread, hwrite⟩ := hcmd
  unfold decodeDescriptor
  split
  · rfl
  · split
    · next hc => exact absurd hc hread
    · next hc => exact absurd hc hwrite
    · split
      · rfl
      · next hunused =>
        have hunnamed : (cmdField d).toNat ∉ [1, 4, 5, 6] := by
          rcases h with h | h | ⟨-, h⟩
          · simp [h]
          · simp only [List.mem_cons, List.not_mem_nil, or_false]
            omega
          · exact absurd h hunused
        split
        case h_5 => rfl
        all_goals
          next hc => simp [hc] at hunnamed

/-- The payload is taken off the stream before anything else of the command is looked at (R278, R285). -/
theorem decodeDescriptor_of_short_payload (addr : FlashAddr) {len : Cursor} {stream : List Byte}
    (h : stream.length < len.toNat) :
    decodeDescriptor (mkDescriptor 0x3#4 addr len) stream = .error .malformedCommand := by
  simp [decodeDescriptor, takeBytes_none.mpr h]

end Sys2Proof

namespace Sys2Proof.Machine

/-- On the host's turn, a descriptor that does not decode is refused, in every state. -/
theorem step_of_decodeDescriptor_error {s : State} {d : Descriptor} {stream : List Byte} {e : DecodeError}
    (hturn : HostTurn s) (hhost : s.host = descriptorBytes d ++ stream)
    (hdec : decodeDescriptor d stream = .error e) : step s = .refused (refusalOf e) := by
  have hcommand : decode .host s.host = .error e := by
    rw [hhost]
    exact (decodeCommand_descriptorBytes d stream).trans hdec
  have hfetch : fetchHost { s with moves := s.moves.tail } = .refuse (refusalOf e) := by
    unfold fetchHost
    split
    · next hnil =>
      have hlen := congrArg List.length (hhost.symm.trans hnil)
      simp at hlen
    · simp only [hcommand]
  simp only [step, fetch_of_hostTurn hturn, hfetch]

/-- Settles O4: each reserved form fails to decode, by its reserved bits or by its command. -/
theorem reservedDescriptorsAreRefused : Obligations.ReservedDescriptorsAreRefused := by
  intro s d rest hturn hhost hres
  have hdec : decodeDescriptor d rest = .error .reservedCommand := by
    rcases hres with hcmd | hcmd | hrsv | hrsv | hunused
    · exact decodeDescriptor_of_reserved_command rest (.inl hcmd)
    · exact decodeDescriptor_of_reserved_command rest (.inr (.inl hcmd))
    · exact decodeDescriptor_of_reserved_bits rest (.inl hrsv)
    · exact decodeDescriptor_of_reserved_bits rest (.inr hrsv)
    · exact decodeDescriptor_of_reserved_command rest (.inr (.inr hunused))
  exact step_of_decodeDescriptor_error hturn hhost hdec

/-- Settles O5: the descriptor itself is sound, so the missing payload is what fails to decode. -/
theorem shortPayloadsAreRefused : Obligations.ShortPayloadsAreRefused := by
  intro s addr len stream hturn hhost hshort
  exact step_of_decodeDescriptor_error hturn hhost (decodeDescriptor_of_short_payload addr hshort)

/-! ### The boot order -/

theorem beginWith_of_unconfigured (n : Nat) (arm : State → Except Fault State) {s : State} (hcfg : s.busCfg = false) :
    beginWith n arm s = .fault (.protocolViolation .beginBeforeInitBus) := by
  have hcheck : beginCheck n s = .violation := if_pos hcfg
  simp only [beginWith, hcheck]

/-- Settles O11: `BUSCFG` is the first thing INIT_BUS and, after the stream, the begin commands look at (R278). -/
theorem bootOrderFaults : Obligations.BootOrderFaults := by
  refine ⟨fun s hcfg => ?_, fun s addr len hcfg => ?_, fun s addr payload hcfg => ?_⟩
  · exact if_pos hcfg
  · exact beginWith_of_unconfigured len.toNat (armRead addr len.toNat) hcfg
  · exact beginWith_of_unconfigured payload.length (armWrite addr payload) hcfg

/-! ### The faults of each instruction -/

/-- The faults the host can cause: a broken boot order, and a read into a store smaller than the buffer (R281, R283). -/
def HostsFault (s : State) (f : Fault) : Prop :=
  (∃ why, f = .protocolViolation why) ∨
    (s.params.storeCapacity < Config.capacity ∧ f = .storeOverflow s.params.storeCapacity)

theorem exec_initBus_fault {s : State} {f : Fault} (h : exec .initBus s = .fault f) : HostsFault s f := by
  simp only [exec, execInitBus] at h
  split at h
  · cases h
    exact .inl ⟨_, rfl⟩
  · cases h

/-- A begin command faults before `BUSCFG` is set, or in its arm procedure, which runs for a length within the limit. -/
theorem beginWith_fault {n : Nat} {arm : State → Except Fault State} {s : State} {f : Fault}
    (h : beginWith n arm s = .fault f) :
    f = .protocolViolation .beginBeforeInitBus ∨ (n ≤ Config.maxPayload ∧ arm s = .error f) := by
  unfold beginWith at h
  split at h
  · cases h
    exact .inl rfl
  · cases h
  · next hacc =>
    obtain ⟨-, -, -, hn⟩ := beginCheck_accepted.mp hacc
    split at h
    · next harm => cases h; exact .inr ⟨hn, harm⟩
    · cases h

/-- A begin command whose frame fits the buffer can only break the boot order. -/
theorem beginWith_armFrame_fault {n wr : Nat} {bytes : List Byte} {q : SeqState} {s : State} {f : Fault}
    (hfits : n ≤ Config.maxPayload → bytes.length ≤ Config.capacity)
    (h : beginWith n (armFrame bytes wr q) s = .fault f) : HostsFault s f := by
  rcases beginWith_fault h with rfl | ⟨hn, harm⟩
  · exact .inl ⟨_, rfl⟩
  · rw [armFrame_ok _ _ _ _ (hfits hn)] at harm
    cases harm

theorem exec_beginRead_fault {addr : FlashAddr} {len : Cursor} {s : State} {f : Fault}
    (h : exec (.beginRead addr len) s = .fault f) : HostsFault s f :=
  beginWith_armFrame_fault (bytes := readHeader addr) (fun _ => by simp [Config.capacity]) h

theorem exec_beginWrite_fault {addr : FlashAddr} {payload : List Byte} {s : State} {f : Fault}
    (h : exec (.beginWrite addr payload) s = .fault f) : HostsFault s f := by
  refine beginWith_armFrame_fault (bytes := writeFrame addr payload) (fun hn => ?_) h
  rw [writeFrame_length]
  simp only [Config.maxPayload] at hn
  simp only [Config.capacity]
  omega

/-- In a Waiting state only what completion does can fault (R179). -/
theorem stepWaiting_fault {done : State → Except Fault State} {s : State} {f : Fault}
    (h : stepWaiting done s = .error f) : done s = .error f := by
  unfold stepWaiting at h
  split at h
  · cases h
  · split at h
    · split at h
      · next hdone => cases h; exact hdone
      · cases h
    · cases h

/-- The completion copy of a frame that fits the buffer faults only on a store smaller than the frame (R180, R283). -/
theorem readDone_fault {s : State} {f : Fault} (hwr : s.wr.toNat ≤ Config.capacity) (h : readDone s = .error f) :
    s.params.storeCapacity < s.wr.toNat ∧ f = .storeOverflow s.params.storeCapacity := by
  have hfits : 0 + s.wr.toNat ≤ Config.capacity := by omega
  unfold readDone at h
  by_cases hroom : s.wr.toNat ≤ s.params.storeCapacity
  · rw [storeCopy_ok _ 0 (storeReset s) hfits (by simpa using hroom)] at h
    cases h
  · have hfull : s.params.storeCapacity < s.wr.toNat := by omega
    rw [storeCopy_overflow _ 0 (storeReset s) hfits (Nat.zero_le _) (by simpa using hfull)] at h
    cases h
    exact ⟨hfull, rfl⟩

/-- Only the completion of a read can fault in STEP. -/
theorem exec_step_fault {s : State} {f : Fault} (hcur : CursorsOk s) (h : exec .step s = .fault f) :
    HostsFault s f := by
  cases hq : s.seq with
  | idle => rw [exec_step_idle hq] at h; cases h
  | readArmed => rw [exec_step_readArmed hq] at h; cases h
  | writeArmed => rw [exec_step_writeArmed hq] at h; cases h
  | stalled => rw [exec_step_stalled hq] at h; cases h
  | writeWaiting =>
    rw [exec_step_writeWaiting hq] at h
    cases stepWaiting_fault (outcomeOf_fault h)
  | readWaiting =>
    rw [exec_step_readWaiting hq] at h
    obtain ⟨-, hwr, -⟩ := hcur
    obtain ⟨hsmall, hf⟩ := readDone_fault hwr (stepWaiting_fault (outcomeOf_fault h))
    exact .inr ⟨by omega, hf⟩

/-- From cursors that keep R48 an invocation answers, whatever the bus offers. -/
theorem exec_pump_answers {s : State} (hcur : CursorsOk s) : ∃ t, exec .pump s = .next t := by
  cases hie : s.ie with
  | false => exact ⟨s, pumpNeedsTheEnable s hie⟩
  | true => exact ⟨_, exec_pump_eq hcur hie⟩

theorem exec_fault {i : Instr} {s : State} {f : Fault} (hcur : CursorsOk s) (h : exec i s = .fault f) :
    HostsFault s f := by
  cases i
  case initBus => exact exec_initBus_fault h
  case beginRead => exact exec_beginRead_fault h
  case beginWrite => exact exec_beginWrite_fault h
  case step => exact exec_step_fault hcur h
  case isIdle => cases h
  case abort => cases h
  case pump =>
    obtain ⟨t, ht⟩ := exec_pump_answers hcur
    rw [ht] at h
    cases h
  all_goals
    rw [exec_of_wire rfl] at h
    cases h

/-! ### The faults of a step -/

/-- A step that faults does so in the instruction it fetched, whose state differs in the inputs alone. -/
theorem step_fault {s : State} {f : Fault} (h : step s = .fault f) :
    ∃ i m c k r, exec i { s with moves := m, host := c, txFree := k, rxOffer := r } = .fault f := by
  unfold step at h
  rcases fetch_cases s with ⟨i, m, c, k, r, hf⟩ | ⟨m, hf⟩ | ⟨l, m, hf⟩ | ⟨r, hf⟩ <;> rw [hf] at h
  · exact ⟨i, m, c, k, r, h⟩
  · cases h
  · cases h
  · cases h

theorem memRead_of_past_end {i : Nat} (h : Config.capacity ≤ i) (s : State) :
    memRead i s = .error (.indexOutOfRange i) := if_neg (Nat.not_lt.mpr h)

theorem memWrite_of_past_end {i : Nat} (h : Config.capacity ≤ i) (b : Byte) (s : State) :
    memWrite i b s = .error (.indexOutOfRange i) := if_neg (Nat.not_lt.mpr h)

/-- Settles O42: the cursor rule R48 keeps every access of every instruction inside the buffer. -/
theorem onlyTheHostsDutiesFault : Obligations.OnlyTheHostsDutiesFault := by
  refine ⟨fun i b s hi => ⟨memRead_of_past_end hi s, memWrite_of_past_end hi b s⟩, fun s f hgood h => ?_⟩
  obtain ⟨i, m, c, k, r, hexec⟩ := step_fault h
  exact exec_fault (s := { s with moves := m, host := c, txFree := k, rxOffer := r }) hgood.cursors hexec

end Sys2Proof.Machine

/-! Reset and the hazards it leaves: the values after a launch or a reset of the block (R311, R313), and that `WR` is
written by the begin commands alone (R317). -/

namespace Sys2Proof.Machine

/-! ### Launch -/

/-- A memory that lists nothing is in canonical form. -/
theorem Memory.wf_nil : Memory.wf [] := ⟨.nil, List.forall_mem_nil _⟩

/-- A launch is a state at rest, so only its memories can break an invariant. -/
theorem launch_good (p : Params) {buf store : Memory} (cur pri : Nat) (hbuf : Memory.wf buf)
    (hin : Memory.within buf Config.capacity) (hstore : Memory.wf store) : Good (State.launch p buf store cur pri) :=
  good_of_rest (.inl rfl) rfl (by simp [CursorsOk, State.launch]) (fun hne => absurd rfl hne) ⟨hbuf, hin, hstore⟩
    (by simp [LedgerOk, State.launch])

/-- Settles O36: reset is a launch with empty memories. -/
theorem launchIsGood : Obligations.LaunchIsGood := by
  constructor
  · exact launch_good _ _ _ Memory.wf_nil (List.forall_mem_nil _) Memory.wf_nil
  · intro p buf store cur pri hbuf hin hstore
    exact launch_good p cur pri hbuf hin hstore

/-- Settles O37: reset is a launch by definition, and a launch states its fields. -/
theorem resetValues : Obligations.ResetValues := by
  constructor
  · exact ⟨_, _, _, _, _, rfl⟩
  · rintro p buf store cur pri s rfl
    simp [State.launch]

/-! ### A reset during a run -/

/-- The move of a reset resets the block and uses itself up (R310, R313). -/
theorem step_of_reset {s : State} {buf : List Byte} {ms : List Move} (h : s.moves = .reset buf :: ms) :
    step s = .next (hardReset buf { s with moves := ms }) := by
  simp only [step, fetch, h]

/-- Settles O38: the step is the reset of the block, whose fields are R311's and whose environment stays. -/
theorem resetKeepsBytesInFlight : Obligations.ResetKeepsBytesInFlight := by
  intro s buf ms h
  refine ⟨_, step_of_reset h, ?_⟩
  simp

/-! ### The writers of `WR` -/

/-- A BEGIN_READ that changes `WR` has armed 12 header bytes and at most 512 data bytes (R172, R215). -/
theorem exec_beginRead_wr {addr : FlashAddr} {len : Cursor} {s t : State}
    (h : exec (.beginRead addr len) s = .next t) (hne : t.wr ≠ s.wr) :
    s.seq = .idle ∧ 12 ≤ t.wr.toNat ∧ t.wr.toNat ≤ 524 := by
  rcases exec_beginRead_next h with ⟨r, rfl⟩ | ⟨-, hidle, -, hlen, rfl⟩
  · exact absurd rfl hne
  · simp only [Config.maxPayload] at hlen
    have hwr := cursor_toNat_ofNat (n := Config.readHdr + len.toNat)
      (by simp only [Config.readHdr, Config.capacity]; omega)
    rw [returnResult_wr, hwr, Config.readHdr]
    exact ⟨hidle, by omega, by omega⟩

/-- A BEGIN_WRITE that changes `WR` has armed 4 header bytes and at most 512 payload bytes (R173, R221). -/
theorem exec_beginWrite_wr {addr : FlashAddr} {payload : List Byte} {s t : State}
    (h : exec (.beginWrite addr payload) s = .next t) (hne : t.wr ≠ s.wr) :
    s.seq = .idle ∧ 4 ≤ t.wr.toNat ∧ t.wr.toNat ≤ 516 := by
  rcases exec_beginWrite_next h with ⟨r, rfl⟩ | ⟨-, hidle, -, hlen, rfl⟩
  · exact absurd rfl hne
  · simp only [Config.maxPayload] at hlen
    have hwr := cursor_toNat_ofNat (n := Config.writeHdr + payload.length)
      (by simp only [Config.writeHdr, Config.capacity]; omega)
    rw [returnResult_wr, hwr, Config.writeHdr]
    exact ⟨hidle, by omega, by omega⟩

/-- STEP keeps `WR`. -/
theorem StepMove.wr_eq {s t : State} (h : StepMove s t) : t.wr = s.wr := by cases h <;> rfl

/-- ABORT keeps `WR` (R228). -/
theorem exec_abort_wr {s t : State} (h : exec .abort s = .next t) : t.wr = s.wr := by
  rcases exec_abort_next h with ⟨-, rfl⟩ | ⟨-, rfl⟩ <;> rfl

/-- PUMP keeps `WR`, even from cursors that break R48 (R151). -/
theorem exec_pump_wr {s t : State} (h : exec .pump s = .next t) : t.wr = s.wr := by
  rcases exec_pump_next h with ⟨-, rfl⟩ | ⟨-, hbody⟩
  · rfl
  · obtain ⟨_, _, _, _, _, _, _, _, overrun, rfl, -, -⟩ := pumpBody_frame hbody
    exact pumpFinish_wr overrun _

/-- In Idle the enable invariant says that `HR` is disabled (R50). -/
theorem EnableOk.ie_of_idle {s : State} (hidle : s.seq = .idle) (h : EnableOk s) : s.ie = false :=
  h.ie_of_not_waiting (isWaiting_idle hidle)

/-- Settles O43: by the instruction; the begin commands write `WR` only by arming, and the others not at all. -/
theorem wrIsWrittenOnlyByArming : Obligations.WrIsWrittenOnlyByArming := by
  intro i s t h hne
  cases i
  case beginRead addr len =>
    obtain ⟨hidle, hmin, hmax⟩ := exec_beginRead_wr h hne
    exact ⟨hidle, EnableOk.ie_of_idle hidle, .inl ⟨⟨addr, len, rfl⟩, hmin, hmax⟩⟩
  case beginWrite addr payload =>
    obtain ⟨hidle, hmin, hmax⟩ := exec_beginWrite_wr h hne
    exact ⟨hidle, EnableOk.ie_of_idle hidle, .inr ⟨⟨addr, payload, rfl⟩, hmin, hmax⟩⟩
  all_goals refine absurd ?_ hne
  case initBus =>
    obtain ⟨-, rfl⟩ := exec_initBus_next h
    rfl
  case step => exact (exec_step_move h).wr_eq
  case isIdle =>
    cases h
    rfl
  case abort => exact exec_abort_wr h
  case pump => exact exec_pump_wr h
  all_goals rw [exec_wire_next rfl h]

end Sys2Proof.Machine
